-- ==== Sys2Proof/Word.lean ====
section
/-! DEFINITION. The bit-vector types of the b45 codec core (spec 00_scope.md R6, R8): bytes and symbol codes of 8 bits,
group values of 16 bits, registers and command words of 32 bits, and the base-45 digit. -/

namespace Sys2Proof

/-- BYTE_WIDTH and SYMBOL_CODE_WIDTH: 8 bits (R6). A byte, a symbol code or an operand. -/
abbrev Byte := BitVec 8

/-- GROUP_VALUE_WIDTH: 16 bits (R6). The value of a byte group, and DEC_ACC. -/
abbrev Half := BitVec 16

/-- REGISTER_WIDTH: 32 bits (R6). A register of the window, and a command word (R70). -/
abbrev Word := BitVec 32

/-- A base-45 digit, "an integer 0–44 corresponding to one alphabet symbol" (R11). -/
abbrev Digit := Fin 45

end Sys2Proof
end

