-- ==== Sys2Proof/Config.lean ====
section
/-! DEFINITION. The parameters the spec leaves open (00_scope.md R7). B45_BASE and N_INSTANCES are plain data of State
(each block's window base, and the number of blocks), so every statement holds for every value of them; here stand the
base the reset state is written with, and T_CMD. The spec has no free values: 93_implementation_defined.md says that no
behaviour of the block is left as one. -/

namespace Sys2Proof.Config

/-- B45_BASE of the one block of State.reset. DESIGN CHOICE (log entry 1): the spec leaves the base open, and "no rule's
result depends on its value" (R7). 64-byte aligned as R50 asks. -/
def resetBase : Nat := 0

/-- T_CMD (R7, R206): the bound on cycles per command, "finite but not given". The model is untimed, so nothing reads it
(log entry 6). -/
opaque tCmd : Nat

end Sys2Proof.Config
end

