-- ==== Sys2Proof/Syntax.lean ====
section
/-! DEFINITION. The command set (spec 30_encoding.md R74: ten rows, one constructor each), the names the window's
registers go by (20_memory.md R52), and the abstract form of the assembler's lines (30_encoding.md R78). -/

namespace Sys2Proof

/-- The ten commands of R74. An operand is OPND = CMD[7:0], an unsigned 8-bit number, and every value of it is legal (R73). -/
inductive Instr where
  | nop                    -- NOP        43_control.md R170
  | clear                  -- CLEAR      43_control.md R171
  | encStart               -- ENC.START  41_encoder.md R123
  | encByte (b : Byte)     -- ENC.BYTE   41_encoder.md R124
  | encEnd                 -- ENC.END    41_encoder.md R125
  | decStart               -- DEC.START  42_decoder.md R143
  | decSym (c : Byte)      -- DEC.SYM    42_decoder.md R144
  | decEnd                 -- DEC.END    42_decoder.md R145
  | lutFwd (i : Byte)      -- LUT.FWD    40_alphabet.md R104
  | lutInv (c : Byte)      -- LUT.INV    40_alphabet.md R105
  deriving DecidableEq, Repr

/-- The mnemonic column of R74. -/
inductive Mnemonic where
  | nop | clear | encStart | encByte | encEnd | decStart | decSym | decEnd | lutFwd | lutInv
  deriving DecidableEq, Repr

/-- Whether R74's operand column names an operand; the six others need OPND = 0 (R72). -/
def Mnemonic.takesOperand : Mnemonic → Bool
  | .encByte | .decSym | .lutFwd | .lutInv => true
  | .nop | .clear | .encStart | .encEnd | .decStart | .decEnd => false

/-- The registers the window names (R52). Offsets 0x1C to 0x3C are reserved and have no name. -/
inductive RegName where
  | cmd | result | status | errPos | decCnt | decAcc | id
  deriving DecidableEq, Repr

/-- An assembler operand (R78): a decimal or hexadecimal number, or a quoted character, which stands for its code. -/
inductive AsmOperand where
  | number (n : Nat)
  | quoted (c : Char)
  deriving DecidableEq, Repr

/-- `MNEMONIC` or `MNEMONIC operand` (R78). -/
structure AsmCommand where
  mnemonic : Mnemonic
  operand : Option AsmOperand
  deriving DecidableEq, Repr

end Sys2Proof
end

