-- ==== Sys2Proof/WellFormed.lean ====
section
/-! DEFINITION. Well-formedness. Every term of Instr is well formed: its operand is 8 bits wide and every value is legal
(spec 30_encoding.md R73). What can be ill formed is a command WORD (R72, R75), checked here field by field without the
decoder, and an assembler line (R78). -/

namespace Sys2Proof

/-- RSV = CMD[31:16] (R70). -/
def rsvField (w : Word) : BitVec 16 := w.extractLsb' 16 16

/-- OP = CMD[15:8] (R70). -/
def opField (w : Word) : Byte := w.extractLsb' 8 8

/-- OPND = CMD[7:0] (R70). -/
def opndField (w : Word) : Byte := w.extractLsb' 0 8

/-- The opcodes of the six commands without an operand (R72, R74). -/
def operandlessOpcodes : List Byte := [0x00, 0x01, 0x10, 0x12, 0x20, 0x22]

/-- The opcodes of the four commands with an operand (R74). -/
def operandOpcodes : List Byte := [0x11, 0x21, 0x30, 0x31]

/-- RSV "must be 0x0000" (R70). -/
def rsvZero (w : Word) : Bool := rsvField w == 0

/-- OP is one of the ten opcodes of R74. -/
def opAssigned (w : Word) : Bool :=
  operandlessOpcodes.contains (opField w) || operandOpcodes.contains (opField w)

/-- OPND "must be 0x00 for commands without an operand" (R70, R72). -/
def reservedOpndZero (w : Word) : Bool :=
  !operandlessOpcodes.contains (opField w) || opndField w == 0

/-- A legal command word: none of the three conditions of R75 holds. -/
def legalWord (w : Word) : Bool := rsvZero w && opAssigned w && reservedOpndZero w

/-- The number an assembler operand stands for (R78). A quoted character stands for its code, which the spec gives for ASCII
only; any other character stands for its code point. DESIGN CHOICE (log entry 10). -/
def AsmOperand.value : AsmOperand → Nat
  | .number n => n
  | .quoted c => c.toNat

/-- An operand stands exactly where the command's row has one (R74, R78). -/
def AsmCommand.operandFits (c : AsmCommand) : Bool := c.operand.isSome == c.mnemonic.takesOperand

/-- "An operand must lie in 0..255" (R78). -/
def AsmCommand.operandInRange (c : AsmCommand) : Bool :=
  match c.operand with
  | none => true
  | some o => decide (o.value ≤ 255)

/-- A well-formed assembler command (R78). -/
def AsmCommand.wf (c : AsmCommand) : Bool := c.operandFits && c.operandInRange

end Sys2Proof
end

