-- ==== Sys2Proof/Decode.lean ====
section
/-! DEFINITION. The decoder (spec 30_encoding.md R77 over the rows of R74), total on all 2^32 words and rejecting by name,
and the encoder (R70). A command word reaches the block whole, as the data of one 32-bit write (20_memory.md R51), so a
word is decoded as a number: how bytes lie in a host's memory is not part of this hardware (R58). -/

namespace Sys2Proof

/-- A row of R74: "A word w selects a row when (w AND mask) = match". -/
structure Row where
  mnemonic : Mnemonic
  mtch : Word
  mask : Word
  deriving DecidableEq, Repr

/-- The complete opcode map (R74). -/
def opcodeMap : List Row := [
  ⟨.nop,      0x00000000, 0xFFFFFFFF⟩,
  ⟨.clear,    0x00000100, 0xFFFFFFFF⟩,
  ⟨.encStart, 0x00001000, 0xFFFFFFFF⟩,
  ⟨.encByte,  0x00001100, 0xFFFFFF00⟩,
  ⟨.encEnd,   0x00001200, 0xFFFFFFFF⟩,
  ⟨.decStart, 0x00002000, 0xFFFFFFFF⟩,
  ⟨.decSym,   0x00002100, 0xFFFFFF00⟩,
  ⟨.decEnd,   0x00002200, 0xFFFFFFFF⟩,
  ⟨.lutFwd,   0x00003000, 0xFFFFFF00⟩,
  ⟨.lutInv,   0x00003100, 0xFFFFFF00⟩]

/-- (w AND mask) = match (R74). -/
def Row.selects (r : Row) (w : Word) : Bool := (w &&& r.mask) == r.mtch

/-- The command a selected row stands for, with OPND as its operand (R73, R77). -/
def Instr.ofMnemonic (m : Mnemonic) (opnd : Byte) : Instr :=
  match m with
  | .nop => .nop
  | .clear => .clear
  | .encStart => .encStart
  | .encByte => .encByte opnd
  | .encEnd => .encEnd
  | .decStart => .decStart
  | .decSym => .decSym opnd
  | .decEnd => .decEnd
  | .lutFwd => .lutFwd opnd
  | .lutInv => .lutInv opnd

/-- Why a word is ILLEGAL: the three conditions of R75. -/
inductive Illegal where
  | reservedNonzero      -- RSV ≠ 0
  | unassignedOpcode     -- OP is not one of the ten opcodes
  | operandNotAllowed    -- OPND ≠ 0 for a command without an operand
  deriving DecidableEq, Repr

/-- The first condition of R75 that an unselected word meets. -/
def illegalReason (w : Word) : Illegal :=
  if !rsvZero w then .reservedNonzero
  else if !opAssigned w then .unassignedOpcode
  else .operandNotAllowed

/-- The decoding procedure of R77. -/
def decode (w : Word) : Except Illegal Instr :=
  match opcodeMap.find? (fun r => r.selects w) with
  | some r => .ok (Instr.ofMnemonic r.mnemonic (opndField w))
  | none => .error (illegalReason w)

/-- The OP field of each command (R74). -/
def Instr.opcode : Instr → Byte
  | .nop => 0x00
  | .clear => 0x01
  | .encStart => 0x10
  | .encByte _ => 0x11
  | .encEnd => 0x12
  | .decStart => 0x20
  | .decSym _ => 0x21
  | .decEnd => 0x22
  | .lutFwd _ => 0x30
  | .lutInv _ => 0x31

/-- The OPND field of each command: its operand, or 0x00 where it has none (R70). -/
def Instr.operand : Instr → Byte
  | .encByte b => b
  | .decSym c => c
  | .lutFwd i => i
  | .lutInv c => c
  | .nop | .clear | .encStart | .encEnd | .decStart | .decEnd => 0x00

/-- The command's word: RSV, OP and OPND, most significant first (R70). -/
def encode (i : Instr) : Word := 0#16 ++ i.opcode ++ i.operand

/-- The word an opcode-table row's bits stand for: nbits bits of w, every bit above them 0. -/
def tableWord (nbits w : Nat) : Word := BitVec.ofNat 32 (w % 2 ^ nbits)

/-- What the decoder reads from an opcode-table word. -/
def decodeTableWord (nbits w : Nat) : Option Instr :=
  match decode (tableWord nbits w) with
  | .ok i => some i
  | .error _ => none

end Sys2Proof
end

