-- ==== Sys2Proof/Machine/State.lean ====
section
/-! DEFINITION. The state (spec 10_state.md R20, R37), as plain data. A block's registers are Regs; the constants ID, FWD
and INV, which nothing writes (R33, R35), are definitions of Ops.lean and Operands.lean. State holds one block's base and
registers in its own fields (the block the meanings act on), the platform's other blocks as peers (R7 N_INSTANCES, R63),
and the host's side of the bus (R12, R36): the accesses it is about to make and the values its reads have returned. -/

namespace Sys2Proof.Machine

/-- ERR_KIND's four codes (60_exceptions.md R181); Flags.lean gives their bits. The block never writes invalidText (R182). -/
inductive ErrKind where
  | none             -- 0 NONE
  | invalidSymbol    -- 1 INVALID_SYMBOL
  | overflow         -- 2 OVERFLOW
  | invalidText      -- 3 INVALID_TEXT, reserved for host software
  deriving DecidableEq, Repr

/-- One entry of the inverse table, {V[6], IDX[5:0]} (40_alphabet.md R102). -/
structure InvEntry where
  valid : Bool
  idx : BitVec 6
  deriving DecidableEq, Repr

/-- The outputs of a command in emission order, and how many are valid: the (o0, o1, o2; n) of `emit` (R28). -/
structure Outputs where
  o0 : Byte
  o1 : Byte
  o2 : Byte
  n : BitVec 2
  deriving DecidableEq, Repr

/-- The registers of one block, under their names in R20, with the widths of R20. -/
structure Regs where
  encPend  : Bool        -- ENC_PEND, 1 bit (R22)
  encPbyte : Byte        -- ENC_PBYTE, 8 bits (R22)
  decPos   : BitVec 2    -- DEC_POS, 2 bits (R24)
  decAcc   : Half        -- DEC_ACC, 16 bits (R25)
  decCnt   : Word        -- DEC_CNT, 32 bits (R27)
  err      : Bool        -- ERR, 1 bit (R30)
  errKind  : ErrKind     -- ERR_KIND, 2 bits (R30)
  errPos   : Word        -- ERRPOS, 32 bits (R31)
  badCmd   : Bool        -- BADCMD, 1 bit (R32)
  result   : Word        -- RESULT, 32 bits (R28)
  deriving DecidableEq, Repr

/-- The reset value of every register (R37). -/
def Regs.reset : Regs where
  encPend := false
  encPbyte := 0x00
  decPos := 0
  decAcc := 0x0000
  decCnt := 0x00000000
  err := false
  errKind := .none
  errPos := 0x00000000
  badCmd := false
  result := 0x00000000

/-- One instance of the block on the platform's bus: its window's base address (B45_BASE, R50) and its registers. -/
structure Block where
  base : Nat
  regs : Regs
  deriving DecidableEq, Repr

/-- What the outside does to the platform (00_scope.md R12): a bus access of the host, or the reset input. `bytes` is the
access's width; `v` is the data of a write, and has a meaning only for a width of 4 bytes (20_memory.md R51, R55). -/
inductive BusEvent where
  | read (addr bytes : Nat)
  | write (addr bytes : Nat) (v : Word)
  | reset
  deriving DecidableEq, Repr

/-- The machine. -/
structure State where
  base    : Nat              -- B45_BASE of this block (R7, R50)
  regs    : Regs             -- the registers of this block (R20)
  peers   : List Block       -- the other N_INSTANCES - 1 blocks (R7, R63)
  pending : List BusEvent    -- the model's own: what the host does next, in bus order (R59; R36 makes it an input)
  reads   : List Word        -- the model's own: what the host's reads returned, oldest first (R36, R57)
  deriving DecidableEq, Repr

/-- The reasons the machine can stop with a fault: none. "No behaviour of the block is left as a free value or a trap"
(93_implementation_defined.md): both of the block's exceptional conditions are recorded in its registers (R180). -/
inductive Fault
  deriving DecidableEq, Repr

/-- The reasons a step is refused. All of them concern a bus access outside the contract; no command is refused. -/
inductive Refusal where
  /-- An instruction with no meaning yet, raised by exec's arms only; no arm raises it. Safe. -/
  | notModelled (mnemonic : String)
  /-- An access of another width than 4 bytes, raised by a bus access: "A model refuses it by name" (R51, R55). Safe. -/
  | badWidth (bytes : Nat)
  /-- A 32-bit access at an offset that is not a multiple of 4, raised by a bus access (R51, R55). Safe. -/
  | misaligned (off : Nat)
  /-- An access to an address in no block's window, raised by a bus access: what lies there "is left to the platform" (R52),
  so the model has no meaning for it (log entry 4). Safe. -/
  | outsideWindow (addr : Nat)
  deriving DecidableEq, Repr

/-- The machine right after reset (R37, R200): every register at its reset value, one block, and a host that has done
nothing yet. The base and the number of blocks are parameters (R7; log entries 1 and 2). -/
def State.reset : State where
  base := Config.resetBase
  regs := Regs.reset
  peers := []
  pending := []
  reads := []

end Sys2Proof.Machine
end

