-- ==== Sys2Proof/Machine/Operands.lean ====
section
/-! DEFINITION. The operand lookups: the forward table FWD (digit to symbol code) and the inverse table INV (symbol code to
digit, or invalid), the two constant ROMs of spec 40_alphabet.md. Operand assembly itself (R73) is opndField, in the decoder. -/

namespace Sys2Proof.Machine

/-- The forward table, in index order 0..44 (R100). -/
def fwdRom : Vector Byte 45 := #v[
  0x30, 0x31, 0x32, 0x33, 0x34, 0x35, 0x36, 0x37, 0x38, 0x39,                -- 0..9    0 to 9
  0x41, 0x42, 0x43, 0x44, 0x45, 0x46, 0x47, 0x48, 0x49, 0x4A, 0x4B, 0x4C, 0x4D,   -- 10..22  A to M
  0x4E, 0x4F, 0x50, 0x51, 0x52, 0x53, 0x54, 0x55, 0x56, 0x57, 0x58, 0x59, 0x5A,   -- 23..35  N to Z
  0x20, 0x24, 0x25, 0x2A, 0x2B, 0x2D, 0x2E, 0x2F, 0x3A]                     -- 36..44  space $ % * + - . / :

/-- FWD[d] (R100). The domain is 0..44, so no index is out of range. -/
def fwd (d : Digit) : Byte := fwdRom[d]

/-- INV[c] (R102): valid with the digit whose symbol code is c, or the invalid marker. -/
def inv (c : Byte) : InvEntry :=
  match fwdRom.toList.findIdx? (· == c) with
  | some d => ⟨true, BitVec.ofNat 6 d⟩
  | none => ⟨false, 0⟩

/-- The 7 bits of an INV entry, {V[6], IDX[5:0]} (R102). -/
def InvEntry.bits (e : InvEntry) : BitVec 7 := BitVec.ofBool e.valid ++ e.idx

end Sys2Proof.Machine
end

