-- ==== Sys2Proof/Machine/Flags.lean ====
section
/-! DEFINITION. Status and flag computations: the layouts of RESULT and STATUS (spec 10_state.md R28, R29), the codes of
ERR_KIND (60_exceptions.md R181), and the overflow check of the positional accumulator (42_decoder.md R141). -/

namespace Sys2Proof.Machine

/-- The 2-bit code of an error kind (R181). -/
def ErrKind.code : ErrKind → BitVec 2
  | .none => 0
  | .invalidSymbol => 1
  | .overflow => 2
  | .invalidText => 3

/-- An output slot of RESULT: "every output slot at index ≥ n written as 0x00" (R28). -/
def slotValue (n : BitVec 2) (k : Nat) (o : Byte) : Byte := if k < n.toNat then o else 0x00

/-- The RESULT word `emit(o0, o1, o2; n)` writes: 5'b0, LINV = 0, NOUT = n, OUT2, OUT1, OUT0 (R28). -/
def resultWord (o : Outputs) : Word :=
  0#5 ++ 0#1 ++ o.n ++ slotValue o.n 2 o.o2 ++ slotValue o.n 1 o.o1 ++ slotValue o.n 0 o.o0

/-- The RESULT word of the invalid marker: LINV = 1, NOUT = 1, OUT0 = 0xFF (40_alphabet.md R104, R105). -/
def invalidMarker : Word := 0#5 ++ 1#1 ++ 1#2 ++ 0x00#8 ++ 0x00#8 ++ 0xFF#8

/-- RESULT.OUTk (R28). -/
def resultOut (w : Word) (k : Nat) : Byte := w.extractLsb' (8 * k) 8

/-- RESULT.NOUT (R28). -/
def resultNout (w : Word) : BitVec 2 := w.extractLsb' 24 2

/-- RESULT.LINV (R28). -/
def resultLinv (w : Word) : Bool := w.getLsbD 26

/-- The STATUS word (R29), most significant field first. -/
def statusWord (r : Regs) : Word :=
  0#16 ++ r.encPbyte ++ 0#1 ++ BitVec.ofBool r.badCmd ++ r.errKind.code ++ BitVec.ofBool r.err ++ r.decPos ++
    BitVec.ofBool r.encPend

/-- The partial term of a digit at a group position, idx * 45^i (R141), in exact arithmetic (R8). -/
abbrev partialTerm (idx pos : Nat) : Nat := idx * 45 ^ pos

/-- Overflow(idx, i, DEC_ACC) (R141): the term check first, then the total check of the adder, which never wraps. -/
def overflows (idx pos acc : Nat) : Bool :=
  decide (65535 < partialTerm idx pos) || decide (65535 < acc + partialTerm idx pos)

end Sys2Proof.Machine
end

