-- ==== Sys2Proof/Machine/Ops.lean ====
section
/-! DEFINITION. The shared operations: the encoder's and the decoder's pipeline functions, writing RESULT, recording an
exceptional condition (the block's only "trap entry", spec 60_exceptions.md R184, R186; there is no return from one, R188),
reading a register of the window, and routing an address to a block. -/

namespace Sys2Proof.Machine

/-! ### Pipeline functions -/

/-- The group value of a 2-byte group: the first byte is the high-order byte, {b1, b2} = b1*256 + b2 (R58, R120). -/
def pairValue (b1 b2 : Byte) : Half := b1 ++ b2

/-- The group value of a lone last byte, "high byte implicitly 0" (R120). -/
def loneValue (b : Byte) : Half := b.setWidth 16

/-- Digits(v): d0, d1, d2 by division from the highest power (R121). -/
def digits (v : Half) : Digit × Digit × Digit :=
  let r := v.toNat % 2025
  (⟨r % 45, by omega⟩, ⟨r / 45, by omega⟩, ⟨v.toNat / 2025, by omega⟩)

/-- EncGroup(v): the symbols of d0 and d1 always, that of d2 only if d2 ≠ 0, least significant first (R122). -/
def encGroup (v : Half) : Outputs :=
  match digits v with
  | (d0, d1, d2) => if d2 ≠ 0 then ⟨fwd d0, fwd d1, fwd d2, 3⟩ else ⟨fwd d0, fwd d1, 0x00, 2⟩

/-- Extract(num): b1 only if it is not 0, then b2 (R142). -/
def extract (num : Half) : Outputs :=
  let b1 : Byte := num.extractLsb' 8 8
  let b2 : Byte := num.extractLsb' 0 8
  if b1 ≠ 0 then ⟨b1, b2, 0x00, 2⟩ else ⟨b2, 0x00, 0x00, 1⟩

/-! ### Writing RESULT and recording a condition -/

/-- `emit(o0, o1, o2; n)` (R28). -/
def emit (o : Outputs) (r : Regs) : Regs := { r with result := resultWord o }

/-- `emit()`: RESULT ← 0x00000000 (R28). -/
def emitNone (r : Regs) : Regs := { r with result := 0x00000000 }

/-- RESULT ← the invalid marker (R104, R105). -/
def emitInvalid (r : Regs) : Regs := { r with result := invalidMarker }

/-- `raise DecodeError(kind, DEC_CNT)` (R184): the kind and the position are recorded and the failing symbol emits
nothing; DEC_POS, DEC_ACC, DEC_CNT, the encoder and BADCMD are unchanged. -/
def raiseDecodeError (kind : ErrKind) (r : Regs) : Regs :=
  { r with err := true, errKind := kind, errPos := r.decCnt, result := 0x00000000 }

/-- `raise IllegalCommand()` (R186): BADCMD ← 1 and nothing else. -/
def raiseIllegalCommand (r : Regs) : Regs := { r with badCmd := true }

/-- Applies a change of registers to the block the machine's own fields hold. -/
def State.onRegs (f : Regs → Regs) (s : State) : State := { s with regs := f s.regs }

/-! ### The register window -/

/-- ID, the constant 0x0B450001 (R33). -/
def idWord : Word := 0x0B450001

/-- The size of the window, 0x40 bytes (R50). -/
def windowBytes : Nat := 0x40

/-- The register at a word offset of the window (R52); none for the reserved offsets. -/
def regAt (off : Nat) : Option RegName :=
  match off with
  | 0x00 => some .cmd
  | 0x04 => some .result
  | 0x08 => some .status
  | 0x0C => some .errPos
  | 0x10 => some .decCnt
  | 0x14 => some .decAcc
  | 0x18 => some .id
  | _ => none

/-- The offset of a named register (R52). -/
def offsetOf : RegName → Nat
  | .cmd => 0x00
  | .result => 0x04
  | .status => 0x08
  | .errPos => 0x0C
  | .decCnt => 0x10
  | .decAcc => 0x14
  | .id => 0x18

/-- The read value of a register (R52, R34): CMD reads as 0 (R54). -/
def readReg (n : RegName) (r : Regs) : Word :=
  match n with
  | .cmd => 0x00000000
  | .result => r.result
  | .status => statusWord r
  | .errPos => r.errPos
  | .decCnt => r.decCnt
  | .decAcc => r.decAcc.setWidth 32
  | .id => idWord

/-- The value a read of a word offset returns: a reserved offset reads as 0 (R53). -/
def readOffset (off : Nat) (r : Regs) : Word :=
  match regAt off with
  | some n => readReg n r
  | none => 0x00000000

/-- The contract of an access inside the window: aligned 32-bit accesses only; any other is refused by name (R51, R55). -/
def contractBreach (off bytes : Nat) : Option Refusal :=
  if bytes ≠ 4 then some (.badWidth bytes)
  else if off % 4 ≠ 0 then some (.misaligned off)
  else none

/-! ### Blocks on the bus -/

/-- The offset of an address in the window at base, if it lies there (R50). -/
def offsetIn (base addr : Nat) : Option Nat :=
  if base ≤ addr ∧ addr < base + windowBytes then some (addr - base) else none

/-- The block whose window holds the address, by its place in the list, and the offset in that window (R50, R63). -/
def routeIn (addr : Nat) : List Block → Option (Nat × Nat)
  | [] => none
  | b :: bs =>
    match offsetIn b.base addr with
    | some off => some (0, off)
    | none => (routeIn addr bs).map (fun p => (p.1 + 1, p.2))

/-- All blocks of the platform: the machine's own, then its peers. -/
def State.blocks (s : State) : List Block := ⟨s.base, s.regs⟩ :: s.peers

/-- Exchanges the machine's own block with the block at place k of State.blocks (place 0 is its own); doing it twice
gives the same state back. A place with no block changes nothing. -/
def State.focus (k : Nat) (s : State) : State :=
  match k with
  | 0 => s
  | j + 1 =>
    match s.peers[j]? with
    | some p => { s with base := p.base, regs := p.regs, peers := s.peers.set j ⟨s.base, s.regs⟩ }
    | none => s

/-- The reset input (70_reset_and_hazards.md R200): every register of every block to its reset value; the blocks "start
together at reset" (60_exceptions.md R194). The host's side of the bus is no part of the block. DEDUCED (log entry 11). -/
def State.applyReset (s : State) : State :=
  { s with regs := Regs.reset, peers := s.peers.map (fun b => { b with regs := Regs.reset }) }

end Sys2Proof.Machine
end

