-- ==== Sys2Proof/Machine/Alphabet.lean ====
section
/-! DEFINITION. The lookup commands LUT.FWD and LUT.INV (spec 40_alphabet.md R104, R105). They write RESULT only. -/

namespace Sys2Proof.Machine

/-- LUT.FWD i: the symbol code of a digit, or the invalid marker for an index above 44 (R104). -/
def lutFwdRegs (i : Byte) (r : Regs) : Regs :=
  if h : i.toNat < 45 then emit ⟨fwd ⟨i.toNat, h⟩, 0x00, 0x00, 1⟩ r else emitInvalid r

/-- LUT.FWD (R104). -/
def execLutFwd (i : Byte) (s : State) : Host.Outcome State Fault Refusal := .next (s.onRegs (lutFwdRegs i))

/-- LUT.INV c: the digit of a symbol code, or the invalid marker (R105). An invalid code is no decode error here. -/
def lutInvRegs (c : Byte) (r : Regs) : Regs :=
  let e := inv c
  if e.valid then emit ⟨e.idx.setWidth 8, 0x00, 0x00, 1⟩ r else emitInvalid r

/-- LUT.INV (R105). -/
def execLutInv (c : Byte) (s : State) : Host.Outcome State Fault Refusal := .next (s.onRegs (lutInvRegs c))

end Sys2Proof.Machine
end

