-- ==== Sys2Proof/Machine/Control.lean ====
section
/-! DEFINITION. The control commands NOP and CLEAR (spec 43_control.md R170, R171). -/

namespace Sys2Proof.Machine

/-- NOP: no register changes, RESULT included (R170). -/
def execNop (s : State) : Host.Outcome State Fault Refusal := .next s

/-- CLEAR's writes, register by register (R171). -/
def clearRegs (r : Regs) : Regs :=
  { r with
    encPend := false, encPbyte := 0x00
    decPos := 0, decAcc := 0x0000, decCnt := 0x00000000
    err := false, errKind := .none, errPos := 0x00000000
    badCmd := false
    result := 0x00000000 }

/-- CLEAR: every register to its reset value (R171). -/
def execClear (s : State) : Host.Outcome State Fault Refusal := .next (s.onRegs clearRegs)

end Sys2Proof.Machine
end

