-- ==== Sys2Proof/Machine/Decoder.lean ====
section
/-! DEFINITION. The decoder pipeline's commands DEC.START, DEC.SYM and DEC.END (spec 42_decoder.md R143, R144, R145). None of
them reads or writes the encoder's state or BADCMD. -/

namespace Sys2Proof.Machine

/-- DEC.START: the error record and the partial group are cleared (R143). -/
def decStartRegs (r : Regs) : Regs :=
  emitNone { r with
    decPos := 0, decAcc := 0x0000, decCnt := 0x00000000
    err := false, errKind := .none, errPos := 0x00000000 }

/-- DEC.START (R143). -/
def execDecStart (s : State) : Host.Outcome State Fault Refusal := .next (s.onRegs decStartRegs)

/-- A symbol of digit idx that neither is invalid nor overflows: it joins the group, or, as the third symbol, completes it
(R144). The sum is exact and is narrowed where a register takes it (R8). -/
def acceptDigit (idx : Nat) (r : Regs) : Regs :=
  let sum := r.decAcc.toNat + partialTerm idx r.decPos.toNat
  if r.decPos.toNat < 2 then
    emitNone { r with decAcc := BitVec.ofNat 16 sum, decPos := r.decPos + 1, decCnt := r.decCnt + 1 }
  else
    emit (extract (BitVec.ofNat 16 sum)) { r with decAcc := 0x0000, decPos := 0, decCnt := r.decCnt + 1 }

/-- DEC.SYM c (R144), its checks in the order of 60_exceptions.md R187: ERR, the lookup, the overflow check. -/
def decSymRegs (c : Byte) (r : Regs) : Regs :=
  if r.err then emitNone r
  else
    let e := inv c
    if !e.valid then raiseDecodeError .invalidSymbol r
    else if overflows e.idx.toNat r.decPos.toNat r.decAcc.toNat then raiseDecodeError .overflow r
    else acceptDigit e.idx.toNat r

/-- DEC.SYM (R144). -/
def execDecSym (c : Byte) (s : State) : Host.Outcome State Fault Refusal := .next (s.onRegs (decSymRegs c))

/-- DEC.END: a final group of 1 or 2 symbols is completed; in a failed session nothing but RESULT changes (R145). -/
def decEndRegs (r : Regs) : Regs :=
  if r.err then emitNone r
  else
    let flushed := if r.decPos = 0 then emitNone r else emit (extract r.decAcc) r
    { flushed with decPos := 0, decAcc := 0x0000, decCnt := 0x00000000 }

/-- DEC.END (R145). -/
def execDecEnd (s : State) : Host.Outcome State Fault Refusal := .next (s.onRegs decEndRegs)

end Sys2Proof.Machine
end

