-- ==== Sys2Proof/Machine/Encoder.lean ====
section
/-! DEFINITION. The encoder pipeline's commands ENC.START, ENC.BYTE and ENC.END (spec 41_encoder.md R123, R124, R125). None
of them reads or writes the decoder's state, the error record or BADCMD, and none can fail (R128). -/

namespace Sys2Proof.Machine

/-- The accumulator emptied: ENC_PEND ← 0, ENC_PBYTE ← 0x00 (R23). -/
def encEmpty (r : Regs) : Regs := { r with encPend := false, encPbyte := 0x00 }

/-- ENC.START: a pending byte is dropped without output (R123). -/
def execEncStart (s : State) : Host.Outcome State Fault Refusal := .next (s.onRegs (fun r => emitNone (encEmpty r)))

/-- ENC.BYTE b: the first byte of a group is held, the second completes the group (R124). -/
def encByteRegs (b : Byte) (r : Regs) : Regs :=
  if r.encPend then emit (encGroup (pairValue r.encPbyte b)) (encEmpty r)
  else emitNone { r with encPend := true, encPbyte := b }

/-- ENC.BYTE (R124). -/
def execEncByte (b : Byte) (s : State) : Host.Outcome State Fault Refusal := .next (s.onRegs (encByteRegs b))

/-- ENC.END: a lone last byte is flushed as a 1-byte group (R125). -/
def encEndRegs (r : Regs) : Regs :=
  if r.encPend then emit (encGroup (loneValue r.encPbyte)) (encEmpty r) else emitNone (encEmpty r)

/-- ENC.END (R125). -/
def execEncEnd (s : State) : Host.Outcome State Fault Refusal := .next (s.onRegs encEndRegs)

end Sys2Proof.Machine
end

