-- ==== Sys2Proof/Machine/Dispatch.lean ====
section
/-! DEFINITION. One arm per command (spec 43_control.md R172). -/

namespace Sys2Proof.Machine

def exec (i : Instr) (s : State) : Host.Outcome State Fault Refusal :=
  match i with
  | .nop => Sys2Proof.Machine.execNop s
  | .clear => Sys2Proof.Machine.execClear s
  | .encStart => Sys2Proof.Machine.execEncStart s
  | .encByte b => Sys2Proof.Machine.execEncByte b s
  | .encEnd => Sys2Proof.Machine.execEncEnd s
  | .decStart => Sys2Proof.Machine.execDecStart s
  | .decSym c => Sys2Proof.Machine.execDecSym c s
  | .decEnd => Sys2Proof.Machine.execDecEnd s
  | .lutFwd idx => Sys2Proof.Machine.execLutFwd idx s
  | .lutInv c => Sys2Proof.Machine.execLutInv c s

end Sys2Proof.Machine
end

