-- ==== Sys2Proof/Machine/Bus.lean ====
section
/-! DEFINITION. The bus accesses that drive a block (spec 20_memory.md R51-R57, 43_control.md R172). Each completed access is
one atomic step (R56). -/

namespace Sys2Proof.Machine

/-- Command dispatch (R172): a legal word runs its command, an illegal one raises IllegalCommand. -/
def dispatch (w : Word) (s : State) : Host.Outcome State Fault Refusal :=
  match decode w with
  | .ok i => exec i s
  | .error _ => .next (s.onRegs raiseIllegalCommand)

/-- A read at an offset of the machine's own block: the value is returned to the host and nothing else changes (R57). -/
def windowRead (bytes off : Nat) (s : State) : Host.Outcome State Fault Refusal :=
  match contractBreach off bytes with
  | some r => .refused r
  | none => .next { s with reads := s.reads ++ [readOffset off s.regs] }

/-- A write at an offset of the machine's own block: CMD executes the word; every other offset ignores it (R52-R54). -/
def windowWrite (bytes : Nat) (v : Word) (off : Nat) (s : State) : Host.Outcome State Fault Refusal :=
  match contractBreach off bytes with
  | some r => .refused r
  | none =>
    match regAt off with
    | some .cmd => dispatch v s
    | _ => .next s

/-- Performs an access at the block in place k of State.blocks, with the other blocks as they are. -/
def onBlock (k : Nat) (f : State → Host.Outcome State Fault Refusal) (s : State) : Host.Outcome State Fault Refusal :=
  match f (s.focus k) with
  | .next t => .next (t.focus k)
  | .fault r => .fault r
  | .refused r => .refused r

/-- An access at an address goes to the block whose window holds it (R50, R63). -/
def busAccess (addr : Nat) (f : Nat → State → Host.Outcome State Fault Refusal) (s : State) :
    Host.Outcome State Fault Refusal :=
  match routeIn addr s.blocks with
  | some (k, off) => onBlock k (f off) s
  | none => .refused (.outsideWindow addr)

/-- One event of the outside: a read, a write, or reset (R12). -/
def busEvent (e : BusEvent) (s : State) : Host.Outcome State Fault Refusal :=
  match e with
  | .read addr bytes => busAccess addr (windowRead bytes) s
  | .write addr bytes v => busAccess addr (windowWrite bytes v) s
  | .reset => .next s.applyReset

/-- The next pending event takes place. With none pending the block is idle: it "never acts on its own" (R12; log entry 3). -/
def nextEvent (s : State) : Host.Outcome State Fault Refusal :=
  match s.pending with
  | [] => .next s
  | e :: es => busEvent e { s with pending := es }

/-- s with the write of a command word as the host's next access: a 32-bit write to CMD of the machine's own block. -/
def State.withCommand (s : State) (w : Word) : State :=
  { s with pending := .write (s.base + offsetOf .cmd) 4 w :: s.pending }

end Sys2Proof.Machine
end

