-- ==== Sys2Proof/Machine/Step.lean ====
section
/-! DEFINITION. One step: one completed bus access, or reset (spec 00_scope.md R12). The block fetches nothing (10_state.md
R21): its commands are the words the host writes to CMD, in bus order (20_memory.md R59). -/

namespace Sys2Proof.Machine

/-- The step (R12). -/
def step (s : State) : Host.Outcome State Fault Refusal := nextEvent s

/-- s with an opcode-table word as the command the host writes next (log entry 5). -/
def State.withFetchWord (s : State) (nbits w : Nat) : State := s.withCommand (tableWord nbits w)

end Sys2Proof.Machine
end

