-- ==== Sys2Proof/Machine/Session.lean ====
section
/-! DEFINITION. The host's side: the assembler lines and macros of spec 30_encoding.md R78 and R79 as lists of bus accesses,
what a host collects from the RESULT words it reads, and the source's two functions `encode_bytes` and `decode_to_bytes`
(41_encoder.md R120-R122, 42_decoder.md R140-R142, R149) over whole sequences, in plain arithmetic, which R126 and R146
compare sessions with. Nothing here is part of the block. -/

namespace Sys2Proof.Machine

/-! ### Assembler lines and macros -/

/-- The word of an assembler command (R78); none if it is ill formed. -/
def assemble (c : AsmCommand) : Option Word :=
  if c.wf then
    some (encode (Instr.ofMnemonic c.mnemonic (BitVec.ofNat 8 ((c.operand.map AsmOperand.value).getD 0))))
  else none

/-- `CMD <command>`: MemWrite(B45_BASE + 0x00, 4, its word) (R78). -/
def cmdLine (base : Nat) (i : Instr) : BusEvent := .write (base + offsetOf .cmd) 4 (encode i)

/-- `RD <register>`: MemRead(B45_BASE + offset, 4) (R78). -/
def rdLine (base : Nat) (n : RegName) : BusEvent := .read (base + offsetOf n) 4

/-- A command and the read of its outputs, and after them other commands the host interleaves. -/
def commandAndRead (base : Nat) (i : Instr) (others : List Instr) : List BusEvent :=
  [cmdLine base i, rdLine base .result] ++ others.map (cmdLine base)

/-- ENC.PAIR b1, b2 (R79). -/
def encPair (base : Nat) (b1 b2 : Byte) : List BusEvent :=
  commandAndRead base (.encByte b1) [] ++ commandAndRead base (.encByte b2) []

/-- An encode session without its ENC.START, each byte followed by commands the host interleaves (R126). -/
def encSession (base : Nat) (bs : List (Byte × List Instr)) : List BusEvent :=
  bs.flatMap (fun p => commandAndRead base (.encByte p.1) p.2) ++ commandAndRead base .encEnd []

/-- ENC.BYTES b0, ..., bn-1 (R79). -/
def encBytesMacro (base : Nat) (bs : List Byte) : List BusEvent :=
  cmdLine base .encStart :: encSession base (bs.map (fun b => (b, [])))

/-- A decode session from the first DEC.SYM on, each symbol followed by commands the host interleaves, with the closing
reads of RESULT, STATUS and ERRPOS (R79, R146). -/
def decSession (base : Nat) (cs : List (Byte × List Instr)) : List BusEvent :=
  cs.flatMap (fun p => commandAndRead base (.decSym p.1) p.2) ++
    commandAndRead base .decEnd [] ++ [rdLine base .status, rdLine base .errPos]

/-- DEC.TEXT "s" (R79), over the codes of the string's characters. -/
def decTextMacro (base : Nat) (cs : List Byte) : List BusEvent :=
  cmdLine base .decStart :: decSession base (cs.map (fun c => (c, [])))

/-- OUT0..OUT(NOUT-1) of a RESULT word (R28, R79). -/
def outputsOf (w : Word) : List Byte := (List.range (resultNout w).toNat).map (resultOut w)

/-- The concatenation of the outputs of every RESULT word read, in order (R79). -/
def collect (ws : List Word) : List Byte := ws.flatMap outputsOf

/-- The commands R126 lets a host interleave with an encode session: lookups and decoder commands. -/
def sparesEncoder : Instr → Bool
  | .decStart | .decSym _ | .decEnd | .lutFwd _ | .lutInv _ => true
  | .nop | .clear | .encStart | .encByte _ | .encEnd => false

/-- The commands R146 lets a host interleave with a decode session: lookups and encoder commands. -/
def sparesDecoder : Instr → Bool
  | .encStart | .encByte _ | .encEnd | .lutFwd _ | .lutInv _ => true
  | .nop | .clear | .decStart | .decSym _ | .decEnd => false

/-! ### The source's functions over whole sequences -/

/-- The symbols of a group value, least-significant digit first; the third only if it is not 0 (R121, R122). -/
def groupSymbols (v : Nat) : List Byte :=
  let sym (d : Nat) : Byte := (fwdRom.toList[d]?).getD 0
  if v < 2025 then [sym (v % 45), sym (v / 45)] else [sym (v % 45), sym (v / 45 % 45), sym (v / 2025)]

/-- `encode_bytes` (R120, R122): consecutive groups of 2 bytes, a final group of 1 if the length is odd. -/
def encodeBytes : List Byte → List Byte
  | [] => []
  | [b] => groupSymbols b.toNat
  | b1 :: b2 :: bs => groupSymbols (b1.toNat * 256 + b2.toNat) ++ encodeBytes bs

/-- `value_of` at a position of the input (R102): the digit, or the invalid-symbol error there. -/
def digitAt (pos : Nat) (c : Byte) : Except (ErrKind × Nat) Nat :=
  match fwdRom.toList.findIdx? (· == c) with
  | some d => .ok d
  | none => .error (.invalidSymbol, pos)

/-- The bytes of a group value: the high byte only if it is not 0 (R142). -/
def groupBytes (v : Nat) : List Byte :=
  if v < 256 then [BitVec.ofNat 8 v] else [BitVec.ofNat 8 (v / 256), BitVec.ofNat 8 v]

/-- `decode_to_bytes` from the character at position pos on (R140, R149): consecutive groups of 3, a final group of 1 or 2;
within a group every lookup comes before the overflow check, and the first failure ends it, with its kind and position. -/
def decodeFrom (pos : Nat) : List Byte → Except (ErrKind × Nat) (List Byte)
  | [] => .ok []
  | [c0] => do
    let d0 ← digitAt pos c0
    return groupBytes d0
  | [c0, c1] => do
    let d0 ← digitAt pos c0
    let d1 ← digitAt (pos + 1) c1
    return groupBytes (d0 + d1 * 45)
  | c0 :: c1 :: c2 :: cs => do
    let d0 ← digitAt pos c0
    let d1 ← digitAt (pos + 1) c1
    let d2 ← digitAt (pos + 2) c2
    if 65535 < d2 * 2025 ∨ 65535 < d0 + d1 * 45 + d2 * 2025 then .error (.overflow, pos + 2)
    else
      let rest ← decodeFrom (pos + 3) cs
      return groupBytes (d0 + d1 * 45 + d2 * 2025) ++ rest

/-- `decode_to_bytes` (R146). -/
def decodeToBytes (cs : List Byte) : Except (ErrKind × Nat) (List Byte) := decodeFrom 0 cs

end Sys2Proof.Machine
end

