-- ==== Sys2Proof/Safety.lean ====
section
/-! DEFINITION. What counts as a safe run: the invariants the spec gives the registers in every reachable state
(10_state.md R23, R24, R26, R28, R30, R31), how blocks lie on the bus (20_memory.md R50, R63), and a host that keeps the
access contract (R51; 60_exceptions.md R196, duty H-10). -/

namespace Sys2Proof.Machine

/-- The invariants of one block's registers. -/
structure Regs.Inv (r : Regs) : Prop where
  /-- R23. -/
  idle_pbyte : r.encPend = false → r.encPbyte = 0x00
  /-- R24, R26: "DEC_POS ∈ {0, 1, 2}". -/
  pos_le : r.decPos.toNat ≤ 2
  /-- R26. -/
  acc_at_0 : r.decPos = 0 → r.decAcc = 0
  /-- R26. -/
  acc_at_1 : r.decPos = 1 → r.decAcc.toNat ≤ 44
  /-- R26. -/
  acc_at_2 : r.decPos = 2 → r.decAcc.toNat ≤ 2024
  /-- R30: "ERR = 0 if and only if ERR_KIND = 0". -/
  kind_none : r.err = false ↔ r.errKind = .none
  /-- R30: "ERR = 1 implies ERR_KIND ∈ {1, 2}"; R182. -/
  kind_raised : r.err = true → r.errKind = .invalidSymbol ∨ r.errKind = .overflow
  /-- R30: "ERR_KIND = 2 implies DEC_POS = 2". -/
  overflow_pos : r.errKind = .overflow → r.decPos = 2
  /-- R31: "ERR = 1 implies ERRPOS = DEC_CNT". -/
  errPos_set : r.err = true → r.errPos = r.decCnt
  /-- R31: "ERR = 0 implies ERRPOS = 0". -/
  errPos_clear : r.err = false → r.errPos = 0
  /-- R28: RESULT[31:27] reads as 0. -/
  result_reserved : r.result.extractLsb' 27 5 = 0
  /-- R28: "A slot at index ≥ NOUT reads 0x00". -/
  result_slots : ∀ k, k < 3 → (resultNout r.result).toNat ≤ k → resultOut r.result k = 0x00
  /-- R28: "LINV = 1 implies NOUT = 1 and OUT0 = 0xFF". -/
  result_linv : resultLinv r.result = true → resultNout r.result = 1 ∧ resultOut r.result 0 = 0xFF

/-- The invariant of the machine: every block's window is 64-byte aligned (R50), no two windows are one (R63), and every
block's registers keep theirs. -/
structure State.Inv (s : State) : Prop where
  aligned : ∀ b ∈ s.blocks, b.base % 64 = 0
  distinct : (s.blocks.map Block.base).Nodup
  regs : ∀ b ∈ s.blocks, b.regs.Inv

/-- The address lies in the window of one of the machine's blocks (R50). -/
def State.mapped (s : State) (addr : Nat) : Prop := ∃ b ∈ s.blocks, b.base ≤ addr ∧ addr < b.base + 0x40

/-- An event inside the contract: an aligned 32-bit access to a window (R51), or reset. -/
def State.onContract (s : State) : BusEvent → Prop
  | .read addr bytes => bytes = 4 ∧ addr % 4 = 0 ∧ s.mapped addr
  | .write addr bytes _ => bytes = 4 ∧ addr % 4 = 0 ∧ s.mapped addr
  | .reset => True

/-- A host that keeps duty H-10 in everything it is about to do (R196). -/
def State.hostKeepsContract (s : State) : Prop := ∀ e ∈ s.pending, s.onContract e

end Sys2Proof.Machine
end

