-- ==== Sys2Proof/Certificates/Slice0/Obligations.lean ====
section
/-! DEFINITION. The statements for the provers. Each cites the rules of spec/ it formalises. Where a statement speaks of one
command, it gives the whole next state, so that it is the command's result, its completion and its frame at once: every
register not named, the base, the other blocks and the host's side of the bus are as before. -/

open Sys2Proof Sys2Proof.Machine

/-! ### Encoding -/

/-- 30_encoding.md R70, R74, R77: a word decodes to a command exactly when it is that command's encoding. -/
def Obligations.DecodeIsTheInverseOfEncode : Prop :=
  ∀ (w : Word) (i : Instr), decode w = .ok i ↔ w = encode i

/-- 30_encoding.md R74: the ten rows with their match and mask, the words that match no row, and no two rows overlapping. -/
def Obligations.OpcodeMapRowsDecode : Prop :=
  (∀ w : Word,
    (w &&& 0xFFFFFFFF = 0x00000000 → decode w = .ok .nop) ∧
    (w &&& 0xFFFFFFFF = 0x00000100 → decode w = .ok .clear) ∧
    (w &&& 0xFFFFFFFF = 0x00001000 → decode w = .ok .encStart) ∧
    (w &&& 0xFFFFFF00 = 0x00001100 → decode w = .ok (.encByte (BitVec.ofNat 8 w.toNat))) ∧
    (w &&& 0xFFFFFFFF = 0x00001200 → decode w = .ok .encEnd) ∧
    (w &&& 0xFFFFFFFF = 0x00002000 → decode w = .ok .decStart) ∧
    (w &&& 0xFFFFFF00 = 0x00002100 → decode w = .ok (.decSym (BitVec.ofNat 8 w.toNat))) ∧
    (w &&& 0xFFFFFFFF = 0x00002200 → decode w = .ok .decEnd) ∧
    (w &&& 0xFFFFFF00 = 0x00003000 → decode w = .ok (.lutFwd (BitVec.ofNat 8 w.toNat))) ∧
    (w &&& 0xFFFFFF00 = 0x00003100 → decode w = .ok (.lutInv (BitVec.ofNat 8 w.toNat))) ∧
    (w &&& 0xFFFFFFFF ≠ 0x00000000 → w &&& 0xFFFFFFFF ≠ 0x00000100 → w &&& 0xFFFFFFFF ≠ 0x00001000 →
      w &&& 0xFFFFFF00 ≠ 0x00001100 → w &&& 0xFFFFFFFF ≠ 0x00001200 → w &&& 0xFFFFFFFF ≠ 0x00002000 →
      w &&& 0xFFFFFF00 ≠ 0x00002100 → w &&& 0xFFFFFFFF ≠ 0x00002200 → w &&& 0xFFFFFF00 ≠ 0x00003000 →
      w &&& 0xFFFFFF00 ≠ 0x00003100 → ∃ e, decode w = .error e)) ∧
  (∀ (w : Word) (r₁ r₂ : Row), r₁ ∈ opcodeMap → r₂ ∈ opcodeMap → r₁.selects w = true → r₂.selects w = true → r₁ = r₂)

/-- 30_encoding.md R75: a word is illegal exactly if RSV ≠ 0, or OP lies in one of the four unassigned ranges, or OPND ≠ 0 for
one of the six commands without an operand; and writing it to CMD sets BADCMD and changes nothing else. -/
def Obligations.IllegalWordsAreThoseOfR75 : Prop :=
  ∀ w : Word,
    let rsv := w.toNat / 65536
    let op := w.toNat / 256 % 256
    let opnd := w.toNat % 256
    ((∃ e, decode w = .error e) ↔
      (rsv ≠ 0 ∨
        ((0x02 ≤ op ∧ op ≤ 0x0F) ∨ (0x13 ≤ op ∧ op ≤ 0x1F) ∨ (0x23 ≤ op ∧ op ≤ 0x2F) ∨ (0x32 ≤ op ∧ op ≤ 0xFF)) ∨
        ((op = 0x00 ∨ op = 0x01 ∨ op = 0x10 ∨ op = 0x12 ∨ op = 0x20 ∨ op = 0x22) ∧ opnd ≠ 0))) ∧
    (∀ (s : State) (es : List BusEvent), s.pending = .write s.base 4 w :: es → (∃ e, decode w = .error e) →
      step s = .next { s with pending := es, regs := { s.regs with badCmd := true } })

/-- 30_encoding.md R74, 95_test_vectors.md: one word of each family, written out bit by bit, decodes to its command, and
illegal words are rejected under the condition of R75 they meet. -/
def Obligations.SampleWordsDecode : Prop :=
  decode 0b00000000000000000000000000000000#32 = .ok .nop ∧
  decode 0b00000000000000000000000100000000#32 = .ok .clear ∧
  decode 0b00000000000000000001000101000001#32 = .ok (.encByte 0x41) ∧
  decode 0b00000000000000000010000100111010#32 = .ok (.decSym 0x3A) ∧
  decode 0b00000000000000000011000000001010#32 = .ok (.lutFwd 10) ∧
  decode 0b00000000000000000011000101000010#32 = .ok (.lutInv 0x42) ∧
  decode 0b00000000000000010001000100000000#32 = .error .reservedNonzero ∧
  decode 0b00000000000000000011001000000000#32 = .error .unassignedOpcode ∧
  decode 0b00000000000000000000000000000001#32 = .error .operandNotAllowed

/-- 30_encoding.md R78, R73: a command without an operand has a word that decodes to it; so has a command with an operand,
for every number in 0..255 and every quoted ASCII character, and its operand is that number or that character's code; a number
above 255 has none. The last clause, on quoted characters outside ASCII, is the model's choice and no rule's: log entry 10 gives
such a character its code point, and no word if that is above 255. -/
def Obligations.AssembledCommandsDecode : Prop :=
  (∀ m : Mnemonic, m.takesOperand = false →
    ∃ w, assemble ⟨m, none⟩ = some w ∧ ∀ b, decode w = .ok (Instr.ofMnemonic m b)) ∧
  (∀ m : Mnemonic, m.takesOperand = true →
    (∀ n : Nat, n ≤ 255 → ∃ (w : Word) (b : Byte), assemble ⟨m, some (.number n)⟩ = some w ∧
      decode w = .ok (Instr.ofMnemonic m b) ∧ b.toNat = n) ∧
    (∀ c : Char, c.toNat < 128 → ∃ (w : Word) (b : Byte), assemble ⟨m, some (.quoted c)⟩ = some w ∧
      decode w = .ok (Instr.ofMnemonic m b) ∧ b.toNat = c.toNat)) ∧
  (∀ (m : Mnemonic) (n : Nat), 255 < n → assemble ⟨m, some (.number n)⟩ = none) ∧
  (∀ (m : Mnemonic) (c : Char), m.takesOperand = true → 128 ≤ c.toNat →
    (c.toNat ≤ 255 → ∃ (w : Word) (b : Byte), assemble ⟨m, some (.quoted c)⟩ = some w ∧
      decode w = .ok (Instr.ofMnemonic m b) ∧ b.toNat = c.toNat) ∧
    (255 < c.toNat → assemble ⟨m, some (.quoted c)⟩ = none))

/-! ### The alphabet tables -/

/-- 40_alphabet.md R100: the table's order in closed form. -/
def Obligations.ForwardTableClosedForm : Prop :=
  (∀ d : Digit, d.val ≤ 9 → (fwd d).toNat = 0x30 + d.val) ∧
  (∀ d : Digit, 10 ≤ d.val → d.val ≤ 35 → (fwd d).toNat = 0x41 + (d.val - 10)) ∧
  [fwd 36, fwd 37, fwd 38, fwd 39, fwd 40, fwd 41, fwd 42, fwd 43, fwd 44] =
    [0x20, 0x24, 0x25, 0x2A, 0x2B, 0x2D, 0x2E, 0x2F, 0x3A]

/-- 40_alphabet.md R101: the 45 codes are distinct, and printable. -/
def Obligations.ForwardTableIsInjective : Prop :=
  (∀ d₁ d₂ : Digit, fwd d₁ = fwd d₂ → d₁ = d₂) ∧ (∀ d : Digit, 0x20 ≤ (fwd d).toNat ∧ (fwd d).toNat ≤ 0x7E)

/-- 40_alphabet.md R102: an entry is {1, d} for the code of digit d and {0, 000000} otherwise, and the valid codes are
exactly the 45 listed. -/
def Obligations.InverseTableEntries : Prop :=
  (∀ d : Digit, (inv (fwd d)).bits = 1#1 ++ BitVec.ofNat 6 d.val) ∧
  (∀ c : Byte, (∀ d : Digit, fwd d ≠ c) → (inv c).bits = 0#7) ∧
  (∀ c : Byte, (inv c).valid = true ↔
    (c = 0x20 ∨ c = 0x24 ∨ c = 0x25 ∨ c = 0x2A ∨ c = 0x2B ∨ c = 0x2D ∨ c = 0x2E ∨ c = 0x2F ∨ c = 0x3A ∨
      (0x30 ≤ c.toNat ∧ c.toNat ≤ 0x39) ∨ (0x41 ≤ c.toNat ∧ c.toNat ≤ 0x5A)))

/-- 40_alphabet.md R103: the two tables are consistent both ways, and so are the two commands: LUT.FWD d followed by LUT.INV
on its OUT0 leaves d in OUT0, with the valid marker. -/
def Obligations.TablesAreConsistent : Prop :=
  (∀ d : Digit, inv (fwd d) = ⟨true, BitVec.ofNat 6 d.val⟩) ∧
  (∀ c : Byte, (inv c).valid = true → ∃ d : Digit, d.val = (inv c).idx.toNat ∧ fwd d = c) ∧
  (∀ (d : Digit) (s : State), ∃ t u, exec (.lutFwd (BitVec.ofNat 8 d.val)) s = .next t ∧
    exec (.lutInv (resultOut t.regs.result 0)) t = .next u ∧
    (resultOut u.regs.result 0).toNat = d.val ∧ resultLinv u.regs.result = false)

/-- 40_alphabet.md R104: LUT.FWD. -/
def Obligations.LutFwdWritesTheSymbolOrTheMarker : Prop :=
  ∀ (i : Byte) (s : State),
    decode (0x000030#24 ++ i) = .ok (.lutFwd i) ∧
    (∀ d : Digit, i.toNat = d.val →
      exec (.lutFwd i) s = .next { s with regs := { s.regs with result := 0x010000#24 ++ fwd d } }) ∧
    (44 < i.toNat → exec (.lutFwd i) s = .next { s with regs := { s.regs with result := 0x050000FF } })

/-- 40_alphabet.md R105: LUT.INV. -/
def Obligations.LutInvWritesTheDigitOrTheMarker : Prop :=
  ∀ (c : Byte) (s : State),
    decode (0x000031#24 ++ c) = .ok (.lutInv c) ∧
    (∀ d : Digit, fwd d = c →
      exec (.lutInv c) s = .next { s with regs := { s.regs with result := BitVec.ofNat 32 (0x01000000 + d.val) } }) ∧
    ((∀ d : Digit, fwd d ≠ c) → exec (.lutInv c) s = .next { s with regs := { s.regs with result := 0x050000FF } })

/-! ### Control -/

/-- 43_control.md R170: NOP changes nothing, RESULT included, and every other command can change RESULT; the word 0x00000001
is no NOP with an operand but illegal. -/
def Obligations.NopChangesNothing : Prop :=
  decode 0x00000000 = .ok .nop ∧ (∀ s : State, exec .nop s = .next s) ∧
  (∀ i : Instr, i ≠ .nop → ∃ s t : State, exec i s = .next t ∧ t.regs.result ≠ s.regs.result) ∧
  (∃ e, decode 0x00000001 = .error e)

/-- 43_control.md R171: CLEAR writes every register its reset value, and is the only command that clears BADCMD. -/
def Obligations.ClearWritesEveryRegister : Prop :=
  decode 0x00000100 = .ok .clear ∧
  (∀ s : State, exec .clear s = .next { s with regs := {
    encPend := false, encPbyte := 0x00, decPos := 0, decAcc := 0x0000, decCnt := 0x00000000, err := false,
    errKind := .none, errPos := 0x00000000, badCmd := false, result := 0x00000000 } }) ∧
  (∀ (i : Instr) (s t : State), exec i s = .next t → s.regs.badCmd = true → t.regs.badCmd = false → i = .clear)

/-- 43_control.md R172: a write of w to CMD runs the command w decodes to, on the state with that write done with, and an
illegal word raises IllegalCommand; a read of the window never dispatches. -/
def Obligations.StepRunsTheDecodedCommand : Prop :=
  ∀ (s : State) (es : List BusEvent),
    (∀ w i, s.pending = .write (s.base + 0x00) 4 w :: es → decode w = .ok i → step s = exec i { s with pending := es }) ∧
    (∀ w e, s.pending = .write (s.base + 0x00) 4 w :: es → decode w = .error e →
      step s = .next { s with pending := es, regs := { s.regs with badCmd := true } }) ∧
    (∀ addr bytes t, s.pending = .read addr bytes :: es → step s = .next t → t.blocks = s.blocks)

/-! ### Encoder -/

/-- 41_encoder.md R121: the three digits of a group value, their ranges, their uniqueness, and when d2 is 0. -/
def Obligations.DigitsOfAGroupValue : Prop :=
  ∀ v : Half,
    v.toNat = (digits v).1.val + (digits v).2.1.val * 45 + (digits v).2.2.val * 2025 ∧
    (digits v).2.2.val ≤ 32 ∧
    ((digits v).2.2.val = 0 ↔ v.toNat < 2025) ∧
    (∀ d0 d1 d2 : Digit, v.toNat = d0.val + d1.val * 45 + d2.val * 2025 → digits v = (d0, d1, d2))

/-- 41_encoder.md R122: a group of value below 2025 gives 2 symbols and any other 3, least significant digit first. -/
def Obligations.GroupSymbolsByValue : Prop :=
  ∀ (v : Half) (d0 d1 d2 : Digit), v.toNat = d0.val + d1.val * 45 + d2.val * 2025 →
    (v.toNat < 2025 → encGroup v = ⟨fwd d0, fwd d1, 0x00, 2⟩) ∧
    (2025 ≤ v.toNat → encGroup v = ⟨fwd d0, fwd d1, fwd d2, 3⟩)

/-- 41_encoder.md R123: ENC.START; and no command but it and CLEAR empties the accumulator without an output. -/
def Obligations.EncStartDropsThePendingByte : Prop :=
  decode 0x00001000 = .ok .encStart ∧
  (∀ s : State, exec .encStart s =
    .next { s with regs := { s.regs with encPend := false, encPbyte := 0x00, result := 0x00000000 } }) ∧
  (∀ (i : Instr) (s t : State), exec i s = .next t → s.regs.encPend = true → t.regs.encPend = false →
    resultNout t.regs.result = 0 → i = .encStart ∨ i = .clear)

/-- 41_encoder.md R124: ENC.BYTE holds the first byte of a group, and on the second writes the symbols of the value
ENC_PBYTE*256 + b, two or three as its third digit is zero or not, and empties the accumulator. -/
def Obligations.EncByteHoldsOrCompletes : Prop :=
  ∀ (b : Byte) (s : State),
    decode (0x000011#24 ++ b) = .ok (.encByte b) ∧
    (s.regs.encPend = false → exec (.encByte b) s =
      .next { s with regs := { s.regs with encPend := true, encPbyte := b, result := 0x00000000 } }) ∧
    (s.regs.encPend = true → ∃ d0 d1 d2 : Digit,
      s.regs.encPbyte.toNat * 256 + b.toNat = d0.val + d1.val * 45 + d2.val * 2025 ∧
      exec (.encByte b) s = .next { s with regs := { s.regs with
        encPend := false, encPbyte := 0x00,
        result := if d2.val = 0 then 0x0200#16 ++ fwd d1 ++ fwd d0 else 0x03#8 ++ fwd d2 ++ fwd d1 ++ fwd d0 } })

/-- 41_encoder.md R125: ENC.END flushes a lone byte as two symbols, and with nothing pending emits nothing. -/
def Obligations.EncEndFlushesTheLoneByte : Prop :=
  decode 0x00001200 = .ok .encEnd ∧
  ∀ s : State,
    (s.regs.encPend = true → ∃ d0 d1 : Digit, s.regs.encPbyte.toNat = d0.val + d1.val * 45 ∧
      exec .encEnd s = .next { s with regs := { s.regs with
        encPend := false, encPbyte := 0x00, result := 0x0200#16 ++ fwd d1 ++ fwd d0 } }) ∧
    (s.regs.encPend = false → exec .encEnd s =
      .next { s with regs := { s.regs with encPend := false, encPbyte := 0x00, result := 0x00000000 } })

/-- 41_encoder.md R126: from any state with ENC_PEND = 0, feeding the bytes one by one, then ENC.END, reading RESULT after
each and with any lookup and decoder commands in between, the concatenated outputs are encode_bytes of the bytes. -/
def Obligations.EncodeSessionComputesEncodeBytes : Prop :=
  ∀ (s : State) (bs : List (Byte × List Instr)) (es : List BusEvent),
    s.regs.encPend = false → (∀ p ∈ bs, ∀ i ∈ p.2, sparesEncoder i = true) → s.pending = encSession s.base bs ++ es →
    ∃ t ws, Host.Core.run Sys2Proof.core (encSession s.base bs).length s = .next t ∧ t.pending = es ∧
      t.reads = s.reads ++ ws ∧ collect ws = encodeBytes (bs.map Prod.fst) ∧ t.regs.encPend = false

/-- 41_encoder.md R127: alphabet closure; the length is L = 2g + t for g byte groups, t of them 2-byte groups of value 2025 or
more; and the empty input gives the empty output. -/
def Obligations.EncodedLengthAndAlphabet : Prop :=
  ∀ bs : List Byte,
    (∀ c ∈ encodeBytes bs, ∃ d : Digit, fwd d = c) ∧
    (encodeBytes bs).length = 2 * ((bs.length + 1) / 2) +
      ((List.range (bs.length / 2)).filter
        (fun k => 2025 ≤ ((bs[2 * k]?).getD 0).toNat * 256 + ((bs[2 * k + 1]?).getD 0).toNat)).length ∧
    (bs = [] → encodeBytes bs = [])

/-! ### Decoder -/

/-- 42_decoder.md R141: the symbol overflows exactly if the term or the total exceeds 65535, which is the total alone; and
where it can happen: never for the first two symbols of a group, always for a third digit of 33 or more, for 32 exactly from
DEC_ACC = 736 on, and never below. -/
def Obligations.OverflowOnlyAtTheThirdSymbol : Prop :=
  (∀ idx pos acc : Nat,
    (overflows idx pos acc = true ↔ (idx * 45 ^ pos > 65535 ∨ acc + idx * 45 ^ pos > 65535)) ∧
    (overflows idx pos acc = true ↔ acc + idx * 45 ^ pos > 65535)) ∧
  (∀ (d : Digit) (r : Regs), r.Inv →
    d.val * 45 ^ r.decPos.toNat ≤ 89100 ∧
    r.decAcc.toNat + d.val * 45 ^ r.decPos.toNat ≤ 91124 ∧
    (r.decPos ≠ 2 → r.decAcc.toNat + d.val * 45 ^ r.decPos.toNat ≤ 2024 ∧
      overflows d.val r.decPos.toNat r.decAcc.toNat = false) ∧
    (r.decPos = 2 →
      (33 ≤ d.val ↔ 65535 < d.val * 2025) ∧
      (33 ≤ d.val → overflows d.val r.decPos.toNat r.decAcc.toNat = true) ∧
      (d.val = 32 → (overflows d.val r.decPos.toNat r.decAcc.toNat = true ↔ 736 ≤ r.decAcc.toNat)) ∧
      (d.val ≤ 31 → r.decAcc.toNat + d.val * 2025 ≤ 64799 ∧
        overflows d.val r.decPos.toNat r.decAcc.toNat = false)))

/-- 42_decoder.md R142: the high byte first, and only if it is not 0; the low byte always. -/
def Obligations.ExtractedBytesByValue : Prop :=
  ∀ (num : Half) (b1 b2 : Byte), num.toNat = b1.toNat * 256 + b2.toNat →
    (b1 ≠ 0 → extract num = ⟨b1, b2, 0x00, 2⟩) ∧ (b1 = 0 → extract num = ⟨b2, 0x00, 0x00, 1⟩)

/-- 42_decoder.md R143: DEC.START; and no command but it and CLEAR clears ERR. -/
def Obligations.DecStartClearsTheSession : Prop :=
  decode 0x00002000 = .ok .decStart ∧
  (∀ s : State, exec .decStart s = .next { s with regs := { s.regs with
    decPos := 0, decAcc := 0x0000, decCnt := 0x00000000, err := false, errKind := .none, errPos := 0x00000000,
    result := 0x00000000 } }) ∧
  (∀ (i : Instr) (s t : State), exec i s = .next t → s.regs.err = true → t.regs.err = false →
    i = .decStart ∨ i = .clear)

/-- 42_decoder.md R144: DEC.SYM in every case: ignored in a failed session; a code of no symbol; an overflow; a symbol that
joins the group; and the symbol that completes it, with its one or two bytes. -/
def Obligations.DecSymTakesOneSymbol : Prop :=
  ∀ (c : Byte) (s : State),
    decode (0x000021#24 ++ c) = .ok (.decSym c) ∧
    (s.regs.err = true → exec (.decSym c) s = .next { s with regs := { s.regs with result := 0x00000000 } }) ∧
    (s.regs.err = false → (∀ d : Digit, fwd d ≠ c) → exec (.decSym c) s = .next { s with regs := { s.regs with
      err := true, errKind := .invalidSymbol, errPos := s.regs.decCnt, result := 0x00000000 } }) ∧
    (∀ d : Digit, s.regs.err = false → fwd d = c →
      let sum := s.regs.decAcc.toNat + d.val * 45 ^ s.regs.decPos.toNat
      (65535 < sum → exec (.decSym c) s = .next { s with regs := { s.regs with
        err := true, errKind := .overflow, errPos := s.regs.decCnt, result := 0x00000000 } }) ∧
      (sum ≤ 65535 → s.regs.decPos.toNat < 2 → exec (.decSym c) s = .next { s with regs := { s.regs with
        decAcc := BitVec.ofNat 16 sum, decPos := s.regs.decPos + 1, decCnt := s.regs.decCnt + 1,
        result := 0x00000000 } }) ∧
      (sum ≤ 65535 → 2 ≤ s.regs.decPos.toNat → exec (.decSym c) s = .next { s with regs := { s.regs with
        decAcc := 0x0000, decPos := 0, decCnt := s.regs.decCnt + 1,
        result := if sum < 256 then 0x010000#24 ++ BitVec.ofNat 8 sum
          else 0x0200#16 ++ BitVec.ofNat 8 sum ++ BitVec.ofNat 8 (sum / 256) } }))

/-- 42_decoder.md R145: DEC.END in every case: a failed session, a session with no partial group, and a final group of 1 or 2
symbols, with its one or two bytes. -/
def Obligations.DecEndCompletesTheFinalGroup : Prop :=
  decode 0x00002200 = .ok .decEnd ∧
  ∀ s : State,
    (s.regs.err = true → exec .decEnd s = .next { s with regs := { s.regs with result := 0x00000000 } }) ∧
    (s.regs.err = false → s.regs.decPos = 0 → exec .decEnd s = .next { s with regs := { s.regs with
      decPos := 0, decAcc := 0x0000, decCnt := 0x00000000, result := 0x00000000 } }) ∧
    (s.regs.err = false → s.regs.decPos ≠ 0 → exec .decEnd s = .next { s with regs := { s.regs with
      decPos := 0, decAcc := 0x0000, decCnt := 0x00000000,
      result := if s.regs.decAcc.toNat < 256 then 0x010000#24 ++ BitVec.ofNat 8 s.regs.decAcc.toNat
        else 0x0200#16 ++ BitVec.ofNat 8 s.regs.decAcc.toNat ++ BitVec.ofNat 8 (s.regs.decAcc.toNat / 256) } })

/-- 42_decoder.md R146: DEC.START, then a DEC.SYM for each character, then DEC.END, reading RESULT after each (lookup and
encoder commands may stand in between) and STATUS and ERRPOS at the end. If STATUS.ERR = 0 the collected outputs are what
decode_to_bytes returns; if STATUS.ERR = 1 it fails, with the kind and position reported, and the collected bytes are those
of the groups completed before the failing character. -/
def Obligations.DecodeSessionComputesDecodeToBytes : Prop :=
  ∀ (s : State) (js : List Instr) (cs : List (Byte × List Instr)) (es prog : List BusEvent),
    (∀ i ∈ js, sparesDecoder i = true) → (∀ p ∈ cs, ∀ i ∈ p.2, sparesDecoder i = true) →
    prog = commandAndRead s.base .decStart js ++ decSession s.base cs → s.pending = prog ++ es →
    ∃ (t : State) (ws : List Word) (status errPos : Word),
      Host.Core.run Sys2Proof.core prog.length s = .next t ∧ t.pending = es ∧
      t.reads = s.reads ++ ws ++ [status, errPos] ∧
      (∀ out, decodeToBytes (cs.map Prod.fst) = .ok out →
        status.getLsbD 3 = false ∧ collect ws = out ∧ errPos = 0) ∧
      (∀ kind pos, decodeToBytes (cs.map Prod.fst) = .error (kind, pos) →
        status.getLsbD 3 = true ∧ status.extractLsb' 4 2 = kind.code ∧ errPos = BitVec.ofNat 32 pos ∧
        decodeToBytes ((cs.map Prod.fst).take (3 * (pos / 3))) = .ok (collect ws))

/-- 30_encoding.md R79: the macros ENC.PAIR, ENC.BYTES and DEC.TEXT, as the accesses they expand to. ENC.BYTES from any state,
and ENC.PAIR from ENC_PEND = 0, collect encode_bytes of their bytes; DEC.TEXT from any state reads STATUS.ERR = 1 exactly if
decode_to_bytes fails on its characters, and then ERR_KIND and ERRPOS are its kind and position; otherwise it collects what
decode_to_bytes returns. -/
def Obligations.HostMacrosComputeTheirOperations : Prop :=
  (∀ (s : State) (bs : List Byte) (es : List BusEvent), s.pending = encBytesMacro s.base bs ++ es →
    ∃ t ws, Host.Core.run Sys2Proof.core (2 * bs.length + 3) s = .next t ∧ t.pending = es ∧
      t.reads = s.reads ++ ws ∧ collect ws = encodeBytes bs) ∧
  (∀ (s : State) (b1 b2 : Byte) (es : List BusEvent), s.regs.encPend = false →
    s.pending = encPair s.base b1 b2 ++ es →
    ∃ t ws, Host.Core.run Sys2Proof.core 4 s = .next t ∧ t.pending = es ∧
      t.reads = s.reads ++ ws ∧ collect ws = encodeBytes [b1, b2]) ∧
  (∀ (s : State) (cs : List Byte) (es : List BusEvent), s.pending = decTextMacro s.base cs ++ es →
    ∃ (t : State) (ws : List Word) (status errPos : Word),
      Host.Core.run Sys2Proof.core (2 * cs.length + 5) s = .next t ∧ t.pending = es ∧
      t.reads = s.reads ++ ws ++ [status, errPos] ∧
      (status.getLsbD 3 = true ↔ ∃ e, decodeToBytes cs = .error e) ∧
      (∀ out, decodeToBytes cs = .ok out → collect ws = out) ∧
      (∀ kind pos, decodeToBytes cs = .error (kind, pos) →
        status.extractLsb' 4 2 = kind.code ∧ errPos = BitVec.ofNat 32 pos))

/-- 42_decoder.md R147: the condition under which decoding undoes encoding: every byte group but the last is a 2-byte group of
value 2025 or more, and a last group of two bytes does not begin with 0x00. -/
def Obligations.RoundTripUnderTheCondition : Prop :=
  ∀ bs : List Byte,
    (∀ k, 2 * k + 2 < bs.length → 2025 ≤ ((bs[2 * k]?).getD 0).toNat * 256 + ((bs[2 * k + 1]?).getD 0).toNat) →
    (bs.length % 2 = 0 → bs ≠ [] → (bs[bs.length - 2]?).getD 0 ≠ 0) →
    decodeToBytes (encodeBytes bs) = .ok bs

/-- 42_decoder.md R147: the four counterexamples, so that the round trip does not hold for all byte sequences. -/
def Obligations.RoundTripFails : Prop :=
  decodeToBytes (encodeBytes [0x00, 0x41]) = .ok [0x41] ∧
  decodeToBytes (encodeBytes [0x00, 0x00, 0x00]) = .ok [0x00, 0x00] ∧
  decodeToBytes (encodeBytes [0x00, 0x41, 0x41, 0x42]) = .ok [0x57, 0x44, 0x01, 0x73] ∧
  decodeToBytes (encodeBytes [0x00, 0x00, 0x08, 0x0A]) = .error (.overflow, 2)

/-! ### Errors -/

/-- 60_exceptions.md R184: only DEC.SYM records a decode error, and all it changes is the record and RESULT; the position is
DEC_CNT; and it records one only while ERR = 0: a command that leaves ERR = 1 as it was leaves the record as it was. -/
def Obligations.OnlyDecSymRecordsADecodeError : Prop :=
  ∀ (i : Instr) (s t : State), exec i s = .next t → t.regs.err = true →
    (s.regs.err = false →
      (∃ c, i = .decSym c) ∧ (t.regs.errKind = .invalidSymbol ∨ t.regs.errKind = .overflow) ∧
      t = { s with regs := { s.regs with
        err := true, errKind := t.regs.errKind, errPos := s.regs.decCnt, result := 0x00000000 } }) ∧
    (s.regs.err = true → t.regs.errKind = s.regs.errKind ∧ t.regs.errPos = s.regs.errPos)

/-- 60_exceptions.md R185: while ERR = 1, DEC.SYM and DEC.END write RESULT ← 0 and nothing else, and the encoder and lookup
commands do what they do whatever the error record holds. -/
def Obligations.FirstErrorSticks : Prop :=
  (∀ (c : Byte) (s : State), s.regs.err = true →
    exec (.decSym c) s = .next { s with regs := { s.regs with result := 0x00000000 } } ∧
    exec .decEnd s = .next { s with regs := { s.regs with result := 0x00000000 } }) ∧
  (∀ (i : Instr) (s t : State) (e : Bool) (k : ErrKind) (p : Word), sparesDecoder i = true → exec i s = .next t →
    exec i { s with regs := { s.regs with err := e, errKind := k, errPos := p } } =
      .next { t with regs := { t.regs with err := e, errKind := k, errPos := p } })

/-- 60_exceptions.md R186: an illegal word sets BADCMD, or leaves it set, and does nothing else; 60_exceptions.md R188: only
CLEAR clears it among the commands. -/
def Obligations.IllegalWordSetsBadCmdOnly : Prop :=
  (∀ (s : State) (es : List BusEvent) (w : Word) (e : Illegal), decode w = .error e →
    s.pending = .write s.base 4 w :: es →
    step s = .next { s with pending := es, regs := { s.regs with badCmd := true } }) ∧
  (∀ (i : Instr) (s t : State), exec i s = .next t → (i ≠ .clear → t.regs.badCmd = s.regs.badCmd))

/-- 10_state.md R38: which commands set and clear each flag, over all commands. -/
def Obligations.FlagsHaveOnlyTheirWriters : Prop :=
  ∀ (i : Instr) (s t : State), exec i s = .next t →
    (s.regs.encPend = false → t.regs.encPend = true → ∃ b, i = .encByte b) ∧
    (s.regs.encPend = true → t.regs.encPend = false → (∃ b, i = .encByte b) ∨ i = .encEnd ∨ i = .encStart ∨ i = .clear) ∧
    (s.regs.err = false → t.regs.err = true → ∃ c, i = .decSym c) ∧
    (s.regs.err = true → t.regs.err = false → i = .decStart ∨ i = .clear) ∧
    (t.regs.badCmd = true → s.regs.badCmd = true) ∧
    (s.regs.badCmd = true → t.regs.badCmd = false → i = .clear) ∧
    (resultLinv t.regs.result = true → (i = .nop ∧ resultLinv s.regs.result = true) ∨
      (∃ n : Byte, i = .lutFwd n ∧ 44 < n.toNat) ∨ (∃ c : Byte, i = .lutInv c ∧ ∀ d : Digit, fwd d ≠ c))

/-! ### The pipelines and RESULT -/

/-- 41_encoder.md section 2, 42_decoder.md section 2, 40_alphabet.md section 3: a lookup writes RESULT only and reads no
register; an encoder command reads and writes no register of the decoder, of the error record, or BADCMD; a decoder command
none of the encoder, nor BADCMD. -/
def Obligations.PipelinesAreIndependent : Prop :=
  (∀ (i : Instr) (r₁ r₂ : Regs) (s t₁ t₂ : State), ((∃ n, i = .lutFwd n) ∨ (∃ c, i = .lutInv c)) →
    exec i { s with regs := r₁ } = .next t₁ → exec i { s with regs := r₂ } = .next t₂ →
    t₁ = { s with regs := { r₁ with result := t₁.regs.result } } ∧ t₁.regs.result = t₂.regs.result) ∧
  (∀ (i : Instr) (r₁ r₂ : Regs) (s t₁ t₂ : State), (i = .encStart ∨ (∃ b, i = .encByte b) ∨ i = .encEnd) →
    r₁.encPend = r₂.encPend → r₁.encPbyte = r₂.encPbyte →
    exec i { s with regs := r₁ } = .next t₁ → exec i { s with regs := r₂ } = .next t₂ →
    t₁ = { s with regs := { r₁ with
      encPend := t₁.regs.encPend, encPbyte := t₁.regs.encPbyte, result := t₁.regs.result } } ∧
    t₁.regs.encPend = t₂.regs.encPend ∧ t₁.regs.encPbyte = t₂.regs.encPbyte ∧ t₁.regs.result = t₂.regs.result) ∧
  (∀ (i : Instr) (r₁ r₂ : Regs) (s t₁ t₂ : State), (i = .decStart ∨ (∃ c, i = .decSym c) ∨ i = .decEnd) →
    { r₁ with encPend := r₂.encPend, encPbyte := r₂.encPbyte, badCmd := r₂.badCmd, result := r₂.result } = r₂ →
    exec i { s with regs := r₁ } = .next t₁ → exec i { s with regs := r₂ } = .next t₂ →
    t₁ = { s with regs := { t₁.regs with encPend := r₁.encPend, encPbyte := r₁.encPbyte, badCmd := r₁.badCmd } } ∧
    { t₁.regs with encPend := r₂.encPend, encPbyte := r₂.encPbyte, badCmd := r₂.badCmd } = t₂.regs)

/-- 70_reset_and_hazards.md R204: every command except NOP overwrites RESULT, whatever it held; NOP and an illegal word leave
it as it was. -/
def Obligations.ResultIsASingleSlot : Prop :=
  (∀ (i : Instr) (s : State) (x : Word), i ≠ .nop → exec i { s with regs := { s.regs with result := x } } = exec i s) ∧
  (∀ s : State, exec .nop s = .next s) ∧
  (∀ (s t : State) (es : List BusEvent) (w : Word) (e : Illegal), decode w = .error e →
    s.pending = .write s.base 4 w :: es → step s = .next t → t.regs.result = s.regs.result)

/-- 10_state.md R28: the layout of RESULT after an emit: slots at index n and above are 0, NOUT = n, LINV = 0, [31:27] = 0. -/
def Obligations.ResultLayout : Prop :=
  ∀ o : Outputs,
    resultOut (resultWord o) 0 = (if 0 < o.n.toNat then o.o0 else 0) ∧
    resultOut (resultWord o) 1 = (if 1 < o.n.toNat then o.o1 else 0) ∧
    resultOut (resultWord o) 2 = (if 2 < o.n.toNat then o.o2 else 0) ∧
    (resultWord o).toNat / 2 ^ 24 = o.n.toNat ∧
    resultNout (resultWord o) = o.n ∧ resultLinv (resultWord o) = false

/-! ### The register window -/

/-- 20_memory.md R52, R53, R54, 10_state.md R33, R34: what a read of each offset returns, and that a write to any offset but
CMD's has no effect. -/
def Obligations.RegisterMap : Prop :=
  ∀ (s : State) (es : List BusEvent) (off : Nat), off < 0x40 → off % 4 = 0 →
    (s.pending = .read (s.base + off) 4 :: es → step s = .next { s with
      pending := es
      reads := s.reads ++ [
        if off = 0x04 then s.regs.result
        else if off = 0x08 then statusWord s.regs
        else if off = 0x0C then s.regs.errPos
        else if off = 0x10 then s.regs.decCnt
        else if off = 0x14 then 0#16 ++ s.regs.decAcc
        else if off = 0x18 then 0x0B450001
        else 0x00000000] }) ∧
    (∀ v, s.pending = .write (s.base + off) 4 v :: es →
      step s = if off = 0x00 then dispatch v { s with pending := es } else .next { s with pending := es })

/-- 10_state.md R29, 60_exceptions.md R181: the fields of STATUS, each at its bits, and the reserved bits 0. -/
def Obligations.StatusLayout : Prop :=
  ∀ r : Regs,
    (statusWord r).toNat = r.encPend.toNat + r.decPos.toNat * 2 + r.err.toNat * 2 ^ 3 + r.errKind.code.toNat * 2 ^ 4 +
      r.badCmd.toNat * 2 ^ 6 + r.encPbyte.toNat * 2 ^ 8 ∧
    ErrKind.code .none = 0 ∧ ErrKind.code .invalidSymbol = 1 ∧ ErrKind.code .overflow = 2 ∧
    ErrKind.code .invalidText = 3

/-- 20_memory.md R57: a read changes no register of any block, and the same read again returns the same value. -/
def Obligations.ReadsHaveNoSideEffect : Prop :=
  ∀ (s t : State) (es : List BusEvent) (addr bytes : Nat),
    s.pending = .read addr bytes :: .read addr bytes :: es → step s = .next t →
    ∃ v, t = { s with pending := .read addr bytes :: es, reads := s.reads ++ [v] } ∧
      step t = .next { t with pending := es, reads := s.reads ++ [v] ++ [v] }

/-- 20_memory.md R51, R55: an access to a window that is not 32 bits wide, or not aligned, is refused by name. -/
def Obligations.AccessesOutsideTheContractAreRefused : Prop :=
  ∀ (s : State) (es : List BusEvent) (off bytes : Nat) (v : Word), off < 0x40 →
    (s.pending = .read (s.base + off) bytes :: es ∨ s.pending = .write (s.base + off) bytes v :: es) →
    (bytes ≠ 4 → step s = .refused (.badWidth bytes)) ∧
    (bytes = 4 → off % 4 ≠ 0 → step s = .refused (.misaligned off))

/-- 20_memory.md R52, and the model's choice, log entry 4: an access to no block's window is refused by name. -/
def Obligations.AccessesOutsideEveryWindowAreRefused : Prop :=
  ∀ (s : State) (es : List BusEvent) (addr bytes : Nat) (v : Word), ¬ s.mapped addr →
    (s.pending = .read addr bytes :: es ∨ s.pending = .write addr bytes v :: es) →
    step s = .refused (.outsideWindow addr)

/-! ### Reset, several blocks, and whole runs -/

/-- 10_state.md R37: the value of every register at reset and after CLEAR, and ID, which is the same always. -/
def Obligations.ResetValues : Prop :=
  State.reset.regs = {
    encPend := false, encPbyte := 0x00, decPos := 0, decAcc := 0x0000, decCnt := 0x00000000, err := false,
    errKind := .none, errPos := 0x00000000, badCmd := false, result := 0x00000000 } ∧
  (∀ s : State, ∃ t, exec .clear s = .next t ∧ t.regs = State.reset.regs) ∧
  (∀ r : Regs, readReg .id r = 0x0B450001)

/-- 70_reset_and_hazards.md R200, R203, 60_exceptions.md R194: the reset input puts every register of the block to its reset
value, whatever it held, and CLEAR leaves the registers as reset does. That one reset event resets every other block too, and
that it leaves the host's side of the bus (what is pending, what was read) alone, is the model's reading, log entry 11. -/
def Obligations.ResetAndClearAgree : Prop :=
  ∀ (s : State) (es : List BusEvent), s.pending = .reset :: es →
    ∃ t u, step s = .next t ∧ exec .clear { s with pending := es } = .next u ∧ t.regs = u.regs ∧
      t.regs = State.reset.regs ∧ t.pending = es ∧ t.reads = s.reads ∧ t.base = s.base ∧
      t.peers.map Block.base = s.peers.map Block.base ∧ (∀ b ∈ t.peers, b.regs = State.reset.regs)

/-- 20_memory.md R63: an access never affects a block whose window it is not in, and no access moves a window or changes how
many blocks there are. -/
def Obligations.BlocksShareNothing : Prop :=
  ∀ (s t : State) (e : BusEvent) (es : List BusEvent) (addr bytes : Nat) (v : Word), s.pending = e :: es →
    (e = .read addr bytes ∨ e = .write addr bytes v) → step s = .next t →
    t.blocks.map Block.base = s.blocks.map Block.base ∧
    ∀ (k : Nat) (b : Block), s.blocks[k]? = some b → ¬ (b.base ≤ addr ∧ addr < b.base + 0x40) → t.blocks[k]? = some b

/-- 20_memory.md R63, 60_exceptions.md R194: a command written to another block does to that block's registers what the same
command does to this one's. -/
def Obligations.PeersRunTheSameCommands : Prop :=
  ∀ (s : State) (k : Nat) (p : Block) (w : Word) (i : Instr) (es : List BusEvent), s.Inv → s.peers[k]? = some p →
    s.pending = .write p.base 4 w :: es → decode w = .ok i →
    ∃ t u, exec i { s with base := p.base, regs := p.regs, pending := es } = .next u ∧ step s = .next t ∧
      t = { s with peers := s.peers.set k ⟨p.base, u.regs⟩, pending := es }

/-- 10_state.md R23, R26, R28, R30, R31, 20_memory.md R50: every step keeps the invariants of every block's registers and
the placement of the windows. -/
def Obligations.StepKeepsTheInvariants : Prop :=
  ∀ s t : State, s.Inv → step s = .next t → t.Inv

/-- 10_state.md R37: the invariants hold at reset. The reset state's base and number of blocks, of which the clauses on the
windows speak, are the model's choices, log entries 1 and 2. -/
def Obligations.ResetMeetsTheInvariants : Prop := State.reset.Inv

/-- 70_reset_and_hazards.md R206, 00_scope.md R12: a host that keeps the access contract is never stopped: as many steps as it
has events pending complete, and each takes the next of them. That any number of steps beyond its last event completes too, with
nothing left pending, is the model's choice of an idle step, log entry 3. -/
def Obligations.ContractKeepingRunsComplete : Prop :=
  ∀ (s : State) (n : Nat), s.Inv → s.hostKeepsContract →
    ∃ t, Host.Core.run Sys2Proof.core n s = .next t ∧ t.pending = s.pending.drop n ∧ t.Inv

/-- 93_implementation_defined.md I1: a step never ends in a fault, and it is refused only for an access outside the contract.
That an access to no window is one of these is the model's choice, log entry 4. -/
def Obligations.OnlyContractBreachesStopAStep : Prop :=
  ∀ s : State, s.Inv →
    (∀ f, step s ≠ .fault f) ∧
    (∀ r, step s = .refused r → ∃ e es, s.pending = e :: es ∧ ¬ s.onContract e)

/-- 00_scope.md R12, log entry 3 (the model's choice of a step where the host does nothing): with no pending event the machine
stays as it is. -/
def Obligations.IdleBlockDoesNotAct : Prop :=
  ∀ s : State, s.pending = [] → step s = .next s
end

