-- ==== Sys2Proof/Laws/State.lean ====
section
/-! SUPPORT. One lemma per field per update of State and of Regs, each true by unfolding, so that no proof unfolds a record
update again. -/

namespace Sys2Proof.Machine

variable (s : State) (r : Regs) (f : Regs → Regs) (o : Outputs) (k : ErrKind)

@[simp] theorem State.onRegs_base : (s.onRegs f).base = s.base := rfl
@[simp] theorem State.onRegs_regs : (s.onRegs f).regs = f s.regs := rfl
@[simp] theorem State.onRegs_peers : (s.onRegs f).peers = s.peers := rfl
@[simp] theorem State.onRegs_pending : (s.onRegs f).pending = s.pending := rfl
@[simp] theorem State.onRegs_reads : (s.onRegs f).reads = s.reads := rfl

@[simp] theorem State.applyReset_base : s.applyReset.base = s.base := rfl
@[simp] theorem State.applyReset_regs : s.applyReset.regs = Regs.reset := rfl
@[simp] theorem State.applyReset_pending : s.applyReset.pending = s.pending := rfl
@[simp] theorem State.applyReset_reads : s.applyReset.reads = s.reads := rfl
@[simp] theorem State.applyReset_peers :
    s.applyReset.peers = s.peers.map (fun b => { b with regs := Regs.reset }) := rfl

@[simp] theorem emit_encPend : (emit o r).encPend = r.encPend := rfl
@[simp] theorem emit_encPbyte : (emit o r).encPbyte = r.encPbyte := rfl
@[simp] theorem emit_decPos : (emit o r).decPos = r.decPos := rfl
@[simp] theorem emit_decAcc : (emit o r).decAcc = r.decAcc := rfl
@[simp] theorem emit_decCnt : (emit o r).decCnt = r.decCnt := rfl
@[simp] theorem emit_err : (emit o r).err = r.err := rfl
@[simp] theorem emit_errKind : (emit o r).errKind = r.errKind := rfl
@[simp] theorem emit_errPos : (emit o r).errPos = r.errPos := rfl
@[simp] theorem emit_badCmd : (emit o r).badCmd = r.badCmd := rfl
@[simp] theorem emit_result : (emit o r).result = resultWord o := rfl

@[simp] theorem emitNone_encPend : (emitNone r).encPend = r.encPend := rfl
@[simp] theorem emitNone_encPbyte : (emitNone r).encPbyte = r.encPbyte := rfl
@[simp] theorem emitNone_decPos : (emitNone r).decPos = r.decPos := rfl
@[simp] theorem emitNone_decAcc : (emitNone r).decAcc = r.decAcc := rfl
@[simp] theorem emitNone_decCnt : (emitNone r).decCnt = r.decCnt := rfl
@[simp] theorem emitNone_err : (emitNone r).err = r.err := rfl
@[simp] theorem emitNone_errKind : (emitNone r).errKind = r.errKind := rfl
@[simp] theorem emitNone_errPos : (emitNone r).errPos = r.errPos := rfl
@[simp] theorem emitNone_badCmd : (emitNone r).badCmd = r.badCmd := rfl
@[simp] theorem emitNone_result : (emitNone r).result = 0 := rfl

@[simp] theorem emitInvalid_encPend : (emitInvalid r).encPend = r.encPend := rfl
@[simp] theorem emitInvalid_encPbyte : (emitInvalid r).encPbyte = r.encPbyte := rfl
@[simp] theorem emitInvalid_decPos : (emitInvalid r).decPos = r.decPos := rfl
@[simp] theorem emitInvalid_decAcc : (emitInvalid r).decAcc = r.decAcc := rfl
@[simp] theorem emitInvalid_decCnt : (emitInvalid r).decCnt = r.decCnt := rfl
@[simp] theorem emitInvalid_err : (emitInvalid r).err = r.err := rfl
@[simp] theorem emitInvalid_errKind : (emitInvalid r).errKind = r.errKind := rfl
@[simp] theorem emitInvalid_errPos : (emitInvalid r).errPos = r.errPos := rfl
@[simp] theorem emitInvalid_badCmd : (emitInvalid r).badCmd = r.badCmd := rfl
@[simp] theorem emitInvalid_result : (emitInvalid r).result = invalidMarker := rfl

@[simp] theorem raiseDecodeError_encPend : (raiseDecodeError k r).encPend = r.encPend := rfl
@[simp] theorem raiseDecodeError_encPbyte : (raiseDecodeError k r).encPbyte = r.encPbyte := rfl
@[simp] theorem raiseDecodeError_decPos : (raiseDecodeError k r).decPos = r.decPos := rfl
@[simp] theorem raiseDecodeError_decAcc : (raiseDecodeError k r).decAcc = r.decAcc := rfl
@[simp] theorem raiseDecodeError_decCnt : (raiseDecodeError k r).decCnt = r.decCnt := rfl
@[simp] theorem raiseDecodeError_err : (raiseDecodeError k r).err = true := rfl
@[simp] theorem raiseDecodeError_errKind : (raiseDecodeError k r).errKind = k := rfl
@[simp] theorem raiseDecodeError_errPos : (raiseDecodeError k r).errPos = r.decCnt := rfl
@[simp] theorem raiseDecodeError_badCmd : (raiseDecodeError k r).badCmd = r.badCmd := rfl
@[simp] theorem raiseDecodeError_result : (raiseDecodeError k r).result = 0 := rfl

@[simp] theorem raiseIllegalCommand_encPend : (raiseIllegalCommand r).encPend = r.encPend := rfl
@[simp] theorem raiseIllegalCommand_encPbyte : (raiseIllegalCommand r).encPbyte = r.encPbyte := rfl
@[simp] theorem raiseIllegalCommand_decPos : (raiseIllegalCommand r).decPos = r.decPos := rfl
@[simp] theorem raiseIllegalCommand_decAcc : (raiseIllegalCommand r).decAcc = r.decAcc := rfl
@[simp] theorem raiseIllegalCommand_decCnt : (raiseIllegalCommand r).decCnt = r.decCnt := rfl
@[simp] theorem raiseIllegalCommand_err : (raiseIllegalCommand r).err = r.err := rfl
@[simp] theorem raiseIllegalCommand_errKind : (raiseIllegalCommand r).errKind = r.errKind := rfl
@[simp] theorem raiseIllegalCommand_errPos : (raiseIllegalCommand r).errPos = r.errPos := rfl
@[simp] theorem raiseIllegalCommand_badCmd : (raiseIllegalCommand r).badCmd = true := rfl
@[simp] theorem raiseIllegalCommand_result : (raiseIllegalCommand r).result = r.result := rfl

@[simp] theorem Regs.reset_encPend : Regs.reset.encPend = false := rfl
@[simp] theorem Regs.reset_encPbyte : Regs.reset.encPbyte = 0 := rfl
@[simp] theorem Regs.reset_decPos : Regs.reset.decPos = 0 := rfl
@[simp] theorem Regs.reset_decAcc : Regs.reset.decAcc = 0 := rfl
@[simp] theorem Regs.reset_decCnt : Regs.reset.decCnt = 0 := rfl
@[simp] theorem Regs.reset_err : Regs.reset.err = false := rfl
@[simp] theorem Regs.reset_errKind : Regs.reset.errKind = .none := rfl
@[simp] theorem Regs.reset_errPos : Regs.reset.errPos = 0 := rfl
@[simp] theorem Regs.reset_badCmd : Regs.reset.badCmd = false := rfl
@[simp] theorem Regs.reset_result : Regs.reset.result = 0 := rfl

theorem State.blocks_eq : s.blocks = ⟨s.base, s.regs⟩ :: s.peers := rfl

/-- The host's side of the bus is no part of the blocks. -/
@[simp] theorem State.blocks_withHost (p : List BusEvent) (w : List Word) :
    State.blocks { s with pending := p, reads := w } = s.blocks := rfl

@[simp] theorem State.focus_zero : s.focus 0 = s := rfl

/-- Focusing on a peer puts it in the machine's own place and the machine's own block in the peer's. -/
theorem State.focus_succ (j : Nat) (p : Block) (h : s.peers[j]? = some p) :
    s.focus (j + 1) = { s with base := p.base, regs := p.regs, peers := s.peers.set j ⟨s.base, s.regs⟩ } := by
  simp [State.focus, h]

/-- Focusing moves blocks only: the host's side of the bus is as it was. -/
@[simp] theorem State.focus_pending (n : Nat) : (s.focus n).pending = s.pending := by
  cases n with
  | zero => rfl
  | succ j => simp only [State.focus]; split <;> rfl

@[simp] theorem State.focus_reads (n : Nat) : (s.focus n).reads = s.reads := by
  cases n with
  | zero => rfl
  | succ j => simp only [State.focus]; split <;> rfl

/-- In focus, a block's registers are the machine's own. -/
theorem State.focus_regs (n : Nat) (b : Block) (h : s.blocks[n]? = some b) : (s.focus n).regs = b.regs := by
  cases n with
  | zero =>
    replace h : (⟨s.base, s.regs⟩ : Block) = b := by simpa [State.blocks] using h
    rw [← h, State.focus_zero]
  | succ j =>
    replace h : s.peers[j]? = some b := by simpa [State.blocks] using h
    rw [State.focus_succ s j b h]

/-- Focusing twice on one place gives the state back. -/
@[simp] theorem State.focus_focus (n : Nat) : (s.focus n).focus n = s := by
  cases n with
  | zero => rfl
  | succ j =>
    cases h : s.peers[j]? with
    | none => simp [State.focus, h]
    | some p =>
      obtain ⟨hj, hp⟩ := List.getElem?_eq_some_iff.mp h
      rw [State.focus_succ s j p h]
      have hb : s.peers.set j ⟨p.base, p.regs⟩ = s.peers := by
        rw [show (⟨p.base, p.regs⟩ : Block) = s.peers[j] from hp.symm]
        exact List.set_getElem_self hj
      simp [State.focus, hj, hb]

/-- Focusing does not look at the host's side of the bus. -/
theorem State.focus_withHost (n : Nat) (p : List BusEvent) (w : List Word) :
    State.focus n { s with pending := p, reads := w } = { s.focus n with pending := p, reads := w } := by
  cases n with
  | zero => rfl
  | succ j => simp only [State.focus]; split <;> rfl

/-- A change of the registers of the block at one place of State.blocks. -/
def State.onBlockRegs (n : Nat) (f : Regs → Regs) (s : State) : State :=
  match n with
  | 0 => s.onRegs f
  | j + 1 => { s with peers := s.peers.modify j (fun b => { b with regs := f b.regs }) }

/-- Changing the registers of the block in focus changes those of the block at that place. -/
theorem State.focus_onRegs_focus (n : Nat) (b : Block) (h : s.blocks[n]? = some b) :
    ((s.focus n).onRegs f).focus n = s.onBlockRegs n f := by
  cases n with
  | zero => rfl
  | succ j =>
    replace h : s.peers[j]? = some b := by simpa [State.blocks] using h
    obtain ⟨hj, hb⟩ := List.getElem?_eq_some_iff.mp h
    rw [State.focus_succ s j b h]
    simp [State.focus, State.onRegs, State.onBlockRegs, hj, hb, List.modify_eq_set_getElem?]

@[simp] theorem State.onBlockRegs_pending (n : Nat) : (s.onBlockRegs n f).pending = s.pending := by
  cases n <;> rfl

@[simp] theorem State.onBlockRegs_reads (n : Nat) : (s.onBlockRegs n f).reads = s.reads := by
  cases n <;> rfl

/-- All blocks after such a change: the one block's registers, and nothing else, are different. -/
theorem State.onBlockRegs_blocks (n : Nat) :
    (s.onBlockRegs n f).blocks = s.blocks.modify n (fun b => { b with regs := f b.regs }) := by
  cases n <;> rfl

end Sys2Proof.Machine
end

