-- ==== Sys2Proof/Laws/Exec.lean ====
section
/-! SUPPORT. What a command can do, said once: it changes the registers of the machine's own block, and nothing else. -/

namespace Sys2Proof.Machine

/-- The registers a command leaves, as a function of those it finds. -/
def commandRegs (i : Instr) (r : Regs) : Regs :=
  match i with
  | .nop => r
  | .clear => clearRegs r
  | .encStart => emitNone (encEmpty r)
  | .encByte b => encByteRegs b r
  | .encEnd => encEndRegs r
  | .decStart => decStartRegs r
  | .decSym c => decSymRegs c r
  | .decEnd => decEndRegs r
  | .lutFwd n => lutFwdRegs n r
  | .lutInv c => lutInvRegs c r

/-- Every command completes, and only the registers change. -/
theorem exec_eq (i : Instr) (s : State) : exec i s = .next (s.onRegs (commandRegs i)) := by
  cases i <;> rfl

/-- The inversion of exec: its one outcome. -/
theorem exec_next_iff {i : Instr} {s t : State} : exec i s = .next t ↔ t = s.onRegs (commandRegs i) := by
  rw [exec_eq, Host.Outcome.next.injEq, eq_comm]

/-- A dispatched word changes registers only: by its command, or by raising IllegalCommand. -/
theorem dispatch_cases (w : Word) (s : State) :
    (∃ i, decode w = .ok i ∧ dispatch w s = .next (s.onRegs (commandRegs i))) ∨
    (∃ e, decode w = .error e ∧ dispatch w s = .next (s.onRegs raiseIllegalCommand)) := by
  cases h : decode w with
  | ok i => exact .inl ⟨i, rfl, by simp [dispatch, h, exec_eq]⟩
  | error e => exact .inr ⟨e, rfl, by simp [dispatch, h]⟩

end Sys2Proof.Machine
end

