-- ==== Sys2Proof/Laws/Bus.lean ====
section
/-! SUPPORT. What a bus access, and so a step, can do: one inversion lemma per shared operation. -/

namespace Sys2Proof.Machine

theorem offsetIn_eq_some {base addr off : Nat} :
    offsetIn base addr = some off ↔ base ≤ addr ∧ addr < base + 0x40 ∧ off = addr - base := by
  unfold offsetIn windowBytes
  split <;> simp_all
  omega

theorem offsetIn_eq_none {base addr : Nat} :
    offsetIn base addr = none ↔ ¬ (base ≤ addr ∧ addr < base + 0x40) := by
  unfold offsetIn windowBytes
  split <;> simp_all

/-- A route leads to a block whose window holds the address, at the address's offset there. -/
theorem routeIn_some {addr k off : Nat} {bs : List Block} (h : routeIn addr bs = some (k, off)) :
    ∃ b, bs[k]? = some b ∧ b.base ≤ addr ∧ addr < b.base + 0x40 ∧ off = addr - b.base := by
  induction bs generalizing k with
  | nil => simp [routeIn] at h
  | cons b bs ih =>
    unfold routeIn at h
    split at h
    · next o ho =>
      obtain ⟨rfl, rfl⟩ : 0 = k ∧ o = off := by simpa using h
      exact ⟨b, rfl, offsetIn_eq_some.mp ho⟩
    · cases hr : routeIn addr bs with
      | none => simp [hr] at h
      | some p =>
        obtain ⟨j, o⟩ := p
        obtain ⟨rfl, rfl⟩ : j + 1 = k ∧ o = off := by simpa [hr] using h
        obtain ⟨c, hc⟩ := ih hr
        exact ⟨c, by simpa using hc.1, hc.2⟩

/-- There is no route exactly if no window holds the address. -/
theorem routeIn_eq_none {addr : Nat} {bs : List Block} :
    routeIn addr bs = none ↔ ∀ b ∈ bs, ¬ (b.base ≤ addr ∧ addr < b.base + 0x40) := by
  induction bs with
  | nil => simp [routeIn]
  | cons b bs ih =>
    unfold routeIn
    split
    · next o ho => simp [offsetIn_eq_some.mp ho]
    · next ho =>
      rw [Option.map_eq_none_iff, ih, List.forall_mem_cons]
      exact (and_iff_right (offsetIn_eq_none.mp ho)).symm

/-- An address in the first block's window is routed to it. -/
theorem routeIn_own {b : Block} {bs : List Block} {off : Nat} (h : off < 0x40) :
    routeIn (b.base + off) (b :: bs) = some (0, off) := by
  have ho : offsetIn b.base (b.base + off) = some off := offsetIn_eq_some.mpr ⟨by omega, by omega, by omega⟩
  simp [routeIn, ho]

/-- What a read at a block can do. -/
theorem windowRead_cases (bytes off : Nat) (s : State) :
    (∃ r, contractBreach off bytes = some r ∧ windowRead bytes off s = .refused r) ∨
    (contractBreach off bytes = none ∧
      windowRead bytes off s = .next { s with reads := s.reads ++ [readOffset off s.regs] }) := by
  unfold windowRead
  split <;> simp_all

/-- What a write at a block can do: a refusal, nothing, or a change of the registers by one dispatched word. -/
theorem windowWrite_cases (bytes : Nat) (v : Word) (off : Nat) (s : State) :
    (∃ r, contractBreach off bytes = some r ∧ windowWrite bytes v off s = .refused r) ∨
    (contractBreach off bytes = none ∧ regAt off = some .cmd ∧ windowWrite bytes v off s = dispatch v s) ∨
    (contractBreach off bytes = none ∧ regAt off ≠ some .cmd ∧ windowWrite bytes v off s = .next s) := by
  unfold windowWrite
  split
  · simp_all
  · split <;> simp_all

theorem contractBreach_eq_none {off bytes : Nat} : contractBreach off bytes = none ↔ bytes = 4 ∧ off % 4 = 0 := by
  unfold contractBreach
  split
  · simp_all
  · split <;> simp_all

/-- A completed access is one at some block the address is routed to. -/
theorem busAccess_next {addr : Nat} {f : Nat → State → Host.Outcome State Fault Refusal} {s t : State}
    (h : busAccess addr f s = .next t) :
    ∃ k off u, routeIn addr s.blocks = some (k, off) ∧ f off (s.focus k) = .next u ∧ t = u.focus k := by
  unfold busAccess onBlock at h
  split at h
  · next k off hr =>
    split at h
    · next u hu => exact ⟨k, off, u, hr, hu, (Host.Outcome.next.inj h).symm⟩
    · cases h
    · cases h
  · cases h

/-- An access at the machine's own window acts on the machine's own block. -/
theorem busAccess_own {off : Nat} (h : off < 0x40) (f : Nat → State → Host.Outcome State Fault Refusal) (s : State) :
    busAccess (s.base + off) f s = f off s := by
  have hr : routeIn (s.base + off) s.blocks = some (0, off) := routeIn_own (b := ⟨s.base, s.regs⟩) h
  simp only [busAccess, hr, onBlock, State.focus_zero]
  cases f off s <;> rfl

/-- A step takes the first pending event. -/
theorem step_cons {s : State} {e : BusEvent} {es : List BusEvent} (h : s.pending = e :: es) :
    step s = busEvent e { s with pending := es } := by
  simp [step, nextEvent, h]

/-- What a completed event can do, said once. A read returns a value and changes no block; a write to CMD changes the
registers of one block, by the command its word decodes to or by raising IllegalCommand; a write to another offset changes
nothing; reset resets every block. -/
theorem busEvent_next {e : BusEvent} {s t : State} (h : busEvent e s = .next t) :
    (∃ addr off k b, e = .read addr 4 ∧ routeIn addr s.blocks = some (k, off) ∧ s.blocks[k]? = some b ∧ off % 4 = 0 ∧
      t = { s with reads := s.reads ++ [readOffset off b.regs] }) ∨
    (∃ addr w off k b i, e = .write addr 4 w ∧ routeIn addr s.blocks = some (k, off) ∧ s.blocks[k]? = some b ∧
      regAt off = some .cmd ∧ decode w = .ok i ∧ t = s.onBlockRegs k (commandRegs i)) ∨
    (∃ addr w off k b e', e = .write addr 4 w ∧ routeIn addr s.blocks = some (k, off) ∧ s.blocks[k]? = some b ∧
      regAt off = some .cmd ∧ decode w = .error e' ∧ t = s.onBlockRegs k raiseIllegalCommand) ∨
    (∃ addr w off k, e = .write addr 4 w ∧ routeIn addr s.blocks = some (k, off) ∧ off % 4 = 0 ∧
      regAt off ≠ some .cmd ∧ t = s) ∨
    (e = .reset ∧ t = s.applyReset) := by
  cases e with
  | read addr bytes =>
    obtain ⟨k, off, u, hr, hu, rfl⟩ := busAccess_next h
    obtain ⟨b, hb, -⟩ := routeIn_some hr
    rcases windowRead_cases bytes off (s.focus k) with ⟨r, -, h2⟩ | ⟨hc, h2⟩
    · rw [h2] at hu; cases hu
    · rw [h2] at hu; cases hu
      obtain ⟨rfl, h4⟩ := contractBreach_eq_none.mp hc
      refine .inl ⟨addr, off, k, b, rfl, hr, hb, h4, ?_⟩
      have hf := State.focus_withHost (s.focus k) k (s.focus k).pending ((s.focus k).reads ++ [readOffset off b.regs])
      simp only [State.focus_focus, State.focus_pending, State.focus_reads] at hf
      rw [congrArg (readOffset off) (State.focus_regs s k b hb), State.focus_reads]
      simpa only [State.focus_pending] using hf
  | write addr bytes w =>
    obtain ⟨k, off, u, hr, hu, rfl⟩ := busAccess_next h
    obtain ⟨b, hb, -⟩ := routeIn_some hr
    rcases windowWrite_cases bytes w off (s.focus k) with ⟨r, -, h2⟩ | ⟨hc, hreg, h2⟩ | ⟨hc, hreg, h2⟩
    · rw [h2] at hu; cases hu
    · obtain ⟨rfl, -⟩ := contractBreach_eq_none.mp hc
      rw [h2] at hu
      rcases dispatch_cases w (s.focus k) with ⟨i, hd, h3⟩ | ⟨e, hd, h3⟩ <;> rw [h3] at hu <;> cases hu
      · exact .inr (.inl ⟨addr, w, off, k, b, i, rfl, hr, hb, hreg, hd, State.focus_onRegs_focus s _ k b hb⟩)
      · exact .inr (.inr (.inl ⟨addr, w, off, k, b, e, rfl, hr, hb, hreg, hd, State.focus_onRegs_focus s _ k b hb⟩))
    · obtain ⟨rfl, h4⟩ := contractBreach_eq_none.mp hc
      rw [h2] at hu; cases hu
      exact .inr (.inr (.inr (.inl ⟨addr, w, off, k, rfl, hr, h4, hreg, State.focus_focus s k⟩)))
  | reset =>
    cases h
    exact .inr (.inr (.inr (.inr ⟨rfl, rfl⟩)))

/-- withFetchWord puts the write of the word before everything the host was about to do. -/
theorem withFetchWord_pending (s : State) (nbits w : Nat) :
    (s.withFetchWord nbits w).pending = .write (s.base + 0x00) 4 (tableWord nbits w) :: s.pending := rfl

end Sys2Proof.Machine
end

