-- ==== Sys2Proof/Laws/Operands.lean ====
section
/-! SUPPORT. What each shared function of the pipelines can answer, said once: the words and group values as numbers, the
table lookup, digit and byte extraction, the overflow check, and the cases of DEC.SYM. -/

namespace Sys2Proof.Machine

/-- Concatenation as arithmetic. -/
theorem append_toNat {m n : Nat} (x : BitVec m) (y : BitVec n) : (x ++ y).toNat = x.toNat * 2 ^ n + y.toNat := by
  rw [BitVec.toNat_append, ← Nat.shiftLeft_add_eq_or_of_lt y.isLt, Nat.shiftLeft_eq]

/-- A word's number from its fields. -/
theorem encode_toNat (i : Instr) : (encode i).toNat = i.opcode.toNat * 256 + i.operand.toNat := by
  have h1 := append_toNat (0#16 ++ i.opcode) i.operand
  have h2 := append_toNat 0#16 i.opcode
  have h3 : (encode i).toNat = ((0#16 ++ i.opcode) ++ i.operand).toNat := rfl
  simp only [BitVec.toNat_ofNat] at h2
  omega

theorem pairValue_toNat (b1 b2 : Byte) : (pairValue b1 b2).toNat = b1.toNat * 256 + b2.toNat :=
  append_toNat b1 b2

theorem loneValue_toNat (b : Byte) : (loneValue b).toNat = b.toNat := by
  have := b.isLt
  simp only [loneValue, BitVec.toNat_setWidth]
  omega

/-- The number of a RESULT word an emit writes. -/
theorem resultWord_toNat (o : Outputs) :
    (resultWord o).toNat = o.n.toNat * 2 ^ 24 + (slotValue o.n 2 o.o2).toNat * 2 ^ 16 +
      (slotValue o.n 1 o.o1).toNat * 2 ^ 8 + (slotValue o.n 0 o.o0).toNat := by
  have h1 := append_toNat (0#5 ++ 0#1) o.n
  have h2 := append_toNat (0#5 ++ 0#1 ++ o.n) (slotValue o.n 2 o.o2)
  have h3 := append_toNat (0#5 ++ 0#1 ++ o.n ++ slotValue o.n 2 o.o2) (slotValue o.n 1 o.o1)
  have h4 := append_toNat (0#5 ++ 0#1 ++ o.n ++ slotValue o.n 2 o.o2 ++ slotValue o.n 1 o.o1) (slotValue o.n 0 o.o0)
  have h5 : (resultWord o).toNat = (0#5 ++ 0#1 ++ o.n ++ slotValue o.n 2 o.o2 ++ slotValue o.n 1 o.o1 ++
    slotValue o.n 0 o.o0).toNat := rfl
  have h0 : (0#5 ++ 0#1).toNat = 0 := rfl
  omega

/-- The inverse lookup: the digit of a symbol's code, or the invalid marker. -/
theorem inv_cases (c : Byte) :
    (∃ d : Digit, fwd d = c ∧ inv c = ⟨true, BitVec.ofNat 6 d.val⟩) ∨
    ((∀ d : Digit, fwd d ≠ c) ∧ inv c = ⟨false, 0⟩) := by
  have hv : ∀ d : Digit, inv (fwd d) = ⟨true, BitVec.ofNat 6 d.val⟩ := by decide
  by_cases h : ∃ d : Digit, fwd d = c
  · obtain ⟨d, rfl⟩ := h
    exact .inl ⟨d, rfl, hv d⟩
  · have hn : ∀ d : Digit, fwd d ≠ c := fun d hd => h ⟨d, hd⟩
    refine .inr ⟨hn, ?_⟩
    have hl : fwdRom.toList.findIdx? (· == c) = none := by
      rw [List.findIdx?_eq_none_iff]
      intro x hx
      obtain ⟨k, hk, rfl⟩ := List.mem_iff_getElem.mp hx
      exact beq_eq_false_iff_ne.mpr (hn ⟨k, by simpa using hk⟩)
    simp [inv, hl]

/-- The digit an entry holds, as a number. -/
theorem digit_idx (d : Digit) : (BitVec.ofNat 6 d.val).toNat = d.val := by revert d; decide

/-- Digit extraction as arithmetic. -/
theorem digits_vals (v : Half) :
    (digits v).1.val = v.toNat % 2025 % 45 ∧ (digits v).2.1.val = v.toNat % 2025 / 45 ∧
      (digits v).2.2.val = v.toNat / 2025 := ⟨rfl, rfl, rfl⟩

/-- A group gives two symbols or three. -/
theorem encGroup_cases (v : Half) :
    ((digits v).2.2 = 0 ∧ encGroup v = ⟨fwd (digits v).1, fwd (digits v).2.1, 0x00, 2⟩) ∨
    ((digits v).2.2 ≠ 0 ∧ encGroup v = ⟨fwd (digits v).1, fwd (digits v).2.1, fwd (digits v).2.2, 3⟩) := by
  by_cases h : (digits v).2.2 = 0
  · exact .inl ⟨h, by simp [encGroup, h]⟩
  · exact .inr ⟨h, by simp [encGroup, h]⟩

/-- A group value gives one byte or two. -/
theorem extract_cases (num : Half) :
    (num.extractLsb' 8 8 = 0 ∧ extract num = ⟨num.extractLsb' 0 8, 0x00, 0x00, 1⟩) ∨
    (num.extractLsb' 8 8 ≠ 0 ∧ extract num = ⟨num.extractLsb' 8 8, num.extractLsb' 0 8, 0x00, 2⟩) := by
  by_cases h : num.extractLsb' 8 8 = 0
  · exact .inl ⟨h, by simp [extract, h]⟩
  · exact .inr ⟨h, if_pos h⟩

/-- DEC.SYM ignores the symbol, records one of the two errors, or takes the digit. -/
theorem decSymRegs_cases (c : Byte) (r : Regs) :
    (r.err = true ∧ decSymRegs c r = emitNone r) ∨
    (r.err = false ∧ (∀ d : Digit, fwd d ≠ c) ∧ decSymRegs c r = raiseDecodeError .invalidSymbol r) ∨
    (∃ d : Digit, r.err = false ∧ fwd d = c ∧ overflows d.val r.decPos.toNat r.decAcc.toNat = true ∧
      decSymRegs c r = raiseDecodeError .overflow r) ∨
    (∃ d : Digit, r.err = false ∧ fwd d = c ∧ overflows d.val r.decPos.toNat r.decAcc.toNat = false ∧
      decSymRegs c r = acceptDigit d.val r) := by
  cases he : r.err with
  | true => exact .inl ⟨rfl, by simp [decSymRegs, he]⟩
  | false =>
    rcases inv_cases c with ⟨d, hd, hi⟩ | ⟨hn, hi⟩
    · cases ho : overflows d.val r.decPos.toNat r.decAcc.toNat with
      | true => exact .inr (.inr (.inl ⟨d, rfl, hd, ho, by simp only [decSymRegs, he, hi, digit_idx, ho]; simp⟩))
      | false => exact .inr (.inr (.inr ⟨d, rfl, hd, ho, by simp only [decSymRegs, he, hi, digit_idx, ho]; simp⟩))
    · exact .inr (.inl ⟨rfl, hn, by simp [decSymRegs, he, hi]⟩)

end Sys2Proof.Machine
end

