-- ==== Sys2Proof/Laws/PerInstr.lean ====
section
/-! SUPPORT. Statements made per instruction: each command's word is a legal one, with the fields R70 gives it. -/

namespace Sys2Proof.Laws.EncodesLegally

/-- The encoding of i has RSV = 0, its opcode and operand in OP and OPND, and none of R75's three defects
(spec 30_encoding.md R70, R72, R75). -/
def Statement (i : Instr) : Prop :=
  rsvField (encode i) = 0 ∧ opField (encode i) = i.opcode ∧ opndField (encode i) = i.operand ∧
    legalWord (encode i) = true

theorem nop : Statement .nop := by unfold Statement; decide
theorem clear : Statement .clear := by unfold Statement; decide
theorem encStart : Statement .encStart := by unfold Statement; decide
theorem encByte : ∀ b, Statement (.encByte b) := by unfold Statement; decide
theorem encEnd : Statement .encEnd := by unfold Statement; decide
theorem decStart : Statement .decStart := by unfold Statement; decide
theorem decSym : ∀ c, Statement (.decSym c) := by unfold Statement; decide
theorem decEnd : Statement .decEnd := by unfold Statement; decide
theorem lutFwd : ∀ n, Statement (.lutFwd n) := by unfold Statement; decide
theorem lutInv : ∀ c, Statement (.lutInv c) := by unfold Statement; decide

end Sys2Proof.Laws.EncodesLegally
end

