-- ==== Sys2Proof/Tests/Slice0.lean ====
section
/-! SUPPORT. The model's own tests. Expected values are those of spec 95_test_vectors.md and of the rules' corner cases and
examples; the words of the decode tests are written bit by bit from each command's "Encoding" line. Then a witness for
every obligation that has hypotheses: concrete inputs that meet them together, at boundary values. -/

namespace Sys2Proof.Tests

open Sys2Proof Sys2Proof.Machine

/-! ### Decoding: one word per command, from the encoding lines of R104, R105, R123-R125, R143-R145, R170, R171 -/

theorem test_decode_nop : decode 0b00000000000000000000000000000000#32 = .ok .nop := by rfl
theorem test_decode_clear : decode 0b00000000000000000000000100000000#32 = .ok .clear := by rfl
theorem test_decode_encStart : decode 0b00000000000000000001000000000000#32 = .ok .encStart := by rfl
theorem test_decode_encByte : decode 0b00000000000000000001000110000001#32 = .ok (.encByte 0x81) := by rfl
theorem test_decode_encEnd : decode 0b00000000000000000001001000000000#32 = .ok .encEnd := by rfl
theorem test_decode_decStart : decode 0b00000000000000000010000000000000#32 = .ok .decStart := by rfl
theorem test_decode_decSym : decode 0b00000000000000000010000100111010#32 = .ok (.decSym 0x3A) := by rfl
theorem test_decode_decEnd : decode 0b00000000000000000010001000000000#32 = .ok .decEnd := by rfl
theorem test_decode_lutFwd : decode 0b00000000000000000011000000101101#32 = .ok (.lutFwd 45) := by rfl
theorem test_decode_lutInv : decode 0b00000000000000000011000101100001#32 = .ok (.lutInv 0x61) := by rfl

/-- The illegal words of 95_test_vectors.md section 5, by the condition of R75 they meet. -/
theorem test_decode_illegal :
    decode 0x00000001 = .error .operandNotAllowed ∧ decode 0x00000101 = .error .operandNotAllowed ∧
    decode 0x00000200 = .error .unassignedOpcode ∧ decode 0x00001001 = .error .operandNotAllowed ∧
    decode 0x00002201 = .error .operandNotAllowed ∧ decode 0x00003200 = .error .unassignedOpcode ∧
    decode 0x00011100 = .error .reservedNonzero ∧ decode 0xFFFFFFFF = .error .reservedNonzero := by
  refine ⟨?_, ?_, ?_, ?_, ?_, ?_, ?_, ?_⟩ <;> rfl

theorem test_decodeTableWord :
    decodeTableWord 32 0x00001141 = some (.encByte 0x41) ∧ decodeTableWord 32 0x00000001 = none := by
  constructor <;> rfl

/-! ### Well-formedness: one ill-formed term per check (R70, R72, R75, R78) -/

theorem test_wf_rsvZero : rsvZero 0x00011100 = false ∧ legalWord 0x00011100 = false := by decide
theorem test_wf_opAssigned : opAssigned 0x00003200 = false ∧ legalWord 0x00003200 = false := by decide
theorem test_wf_reservedOpndZero : reservedOpndZero 0x00000101 = false ∧ legalWord 0x00000101 = false := by decide
theorem test_wf_legal : legalWord 0x000011FF = true := by decide

theorem test_wf_operandFits :
    AsmCommand.wf ⟨.nop, some (.number 0)⟩ = false ∧ AsmCommand.wf ⟨.encByte, none⟩ = false := by decide
theorem test_wf_operandInRange : AsmCommand.wf ⟨.encByte, some (.number 256)⟩ = false := by decide

/-- R105: `LUT.INV 'B'` is the word 0x00003142. -/
theorem test_assemble : assemble ⟨.lutInv, some (.quoted 'B')⟩ = some 0x00003142 := by decide

/-! ### One step per command -/

/-- The registers after one step from registers r in which the host writes w to CMD. -/
def after (r : Regs) (w : Word) : Option Regs :=
  match step (State.withCommand { State.reset with regs := r } w) with
  | .next t => some t.regs
  | _ => none

/-- A byte pending in the encoder: the start state of 95_test_vectors.md section 5. -/
def pendingA : Regs := { Regs.reset with encPend := true, encPbyte := 0x41 }

/-- The decoder in a group, after pos symbols of value acc. -/
def inGroup (pos : BitVec 2) (acc : Half) : Regs :=
  { Regs.reset with decPos := pos, decAcc := acc, decCnt := pos.setWidth 32 }

/-- R143's example: a session failed by overflow at its third symbol. -/
def failed : Regs := { inGroup 2 2024 with err := true, errKind := .overflow, errPos := 2 }

theorem test_nop_keeps_result :
    (after { Regs.reset with result := 0x03384242 } 0x00000000).map Regs.result = some 0x03384242 := by rfl

/-- R171's example, from STATUS = 0x0000416D. -/
theorem test_clear :
    (statusWord { failed with encPend := true, encPbyte := 0x41, badCmd := true } = 0x0000416D) ∧
    (after { failed with encPend := true, encPbyte := 0x41, badCmd := true } 0x00000100) = some Regs.reset := by
  constructor <;> rfl

theorem test_encStart_drops : after pendingA 0x00001000 = some Regs.reset := by rfl

theorem test_encByte_holds : (after Regs.reset 0x00001141).map statusWord = some 0x00004101 := by rfl
/-- S1: 0x41, 0x42 give `BB8`. -/
theorem test_encByte_completes :
    after pendingA 0x00001142 = some { Regs.reset with result := 0x03384242 } := by rfl

theorem test_encEnd_flushes :
    after { Regs.reset with encPend := true, encPbyte := 0x21 } 0x00001200 =
      some { Regs.reset with result := 0x02003058 } := by rfl
theorem test_encEnd_empty : after Regs.reset 0x00001200 = some Regs.reset := by rfl

theorem test_decStart_clears : after failed 0x00002000 = some Regs.reset := by rfl

/-- `BB8`: the third symbol of 16706 = 11 + 11*45 + 8*2025. -/
theorem test_decSym_completes :
    (after (inGroup 2 506) 0x00002138) = some { Regs.reset with decCnt := 3, result := 0x02004241 } := by rfl
/-- `GGW`: 736 + 64800 = 65536. -/
theorem test_decSym_overflows :
    (after (inGroup 2 736) 0x00002157).map (fun r => (statusWord r, r.errPos, r.decAcc)) =
      some (0x0000002C, 2, 736) := by rfl

theorem test_decEnd_one_byte :
    after (inGroup 2 33) 0x00002200 = some { Regs.reset with result := 0x01000021 } := by rfl
theorem test_decEnd_two_bytes :
    after (inGroup 2 2024) 0x00002200 = some { Regs.reset with result := 0x0200E807 } := by rfl

theorem test_lutFwd : (after pendingA 0x0000300A) = some { pendingA with result := 0x01000041 } := by rfl
theorem test_lutFwd_marker : (after pendingA 0x0000302D).map Regs.result = some 0x050000FF := by rfl

theorem test_lutInv : (after pendingA 0x00003142) = some { pendingA with result := 0x0100000B } := by rfl
theorem test_lutInv_marker : (after pendingA 0x00003161).map Regs.result = some 0x050000FF := by rfl

theorem test_illegal_sets_badCmd : (after pendingA 0x00003200).map statusWord = some 0x00004141 := by rfl

/-! ### The window: the bus-level vectors of 95_test_vectors.md section 5 -/

/-- What the host's reads have returned after one event. -/
def readsAfter (e : BusEvent) : Option (List Word) :=
  match step { State.reset with pending := [e] } with
  | .next t => some t.reads
  | _ => none

theorem test_read_id : readsAfter (.read 0x18 4) = some [0x0B450001] := by rfl
theorem test_read_cmd : readsAfter (.read 0x00 4) = some [0x00000000] := by rfl
theorem test_read_reserved : readsAfter (.read 0x3C 4) = some [0x00000000] := by rfl
theorem test_write_status_ignored :
    step { State.reset with pending := [.write 0x08 4 0x12345678] } = .next State.reset := by rfl
theorem test_byte_access_refused :
    step { State.reset with pending := [.read 0x04 1] } = .refused (.badWidth 1) := by rfl

/-! ### Whole sequences: S1-S4 and the decode vectors, through the reference functions -/

/-- S4: "ietf!" and `QED8WEX0`. -/
theorem test_encodeBytes_s4 :
    encodeBytes [0x69, 0x65, 0x74, 0x66, 0x21] = [0x51, 0x45, 0x44, 0x38, 0x57, 0x45, 0x58, 0x30] := by rfl
theorem test_decodeToBytes_s4 :
    decodeToBytes [0x51, 0x45, 0x44, 0x38, 0x57, 0x45, 0x58, 0x30] = .ok [0x69, 0x65, 0x74, 0x66, 0x21] := by rfl
/-- `:::a`: the overflow wins over the later invalid symbol. -/
theorem test_decodeToBytes_order : decodeToBytes [0x3A, 0x3A, 0x3A, 0x61] = .error (.overflow, 2) := by rfl

/-! ### Witnesses of the obligations' hypotheses -/

theorem reset_inv : Regs.Inv Regs.reset := by
  constructor <;> decide

theorem inGroup_inv (pos : BitVec 2) (acc : Half) (hp : pos.toNat ≤ 2) (h0 : pos = 0 → acc = 0)
    (h1 : pos = 1 → acc.toNat ≤ 44) (h2 : pos = 2 → acc.toNat ≤ 2024) : Regs.Inv (inGroup pos acc) :=
  { reset_inv with
    pos_le := hp, acc_at_0 := h0, acc_at_1 := h1, acc_at_2 := h2
    overflow_pos := by simp [inGroup, Regs.reset]
    errPos_set := by simp [inGroup, Regs.reset] }

/-- The reset state with a host that is about to do es. -/
def hostDoes (es : List BusEvent) : State := { State.reset with pending := es }

/-- The reset state with one event pending. -/
def resetWith (e : BusEvent) : State := hostDoes [e]

/-- A second block, in a session, in the window above the first. -/
def twoBlocks : State := { State.reset with peers := [⟨0x40, pendingA⟩] }

theorem pendingA_inv : Regs.Inv pendingA := { reset_inv with idle_pbyte := by simp [pendingA] }

theorem twoBlocks_inv (es : List BusEvent) : State.Inv { twoBlocks with pending := es } where
  aligned := by simp [State.blocks, twoBlocks, State.reset, Config.resetBase]
  distinct := by simp [State.blocks, twoBlocks, State.reset, Config.resetBase]
  regs := by simp [State.blocks, twoBlocks, State.reset, reset_inv, pendingA_inv]

theorem witness_OpcodeMapRowsDecode :
    (0x00000000#32 &&& 0xFFFFFFFF = 0x00000000 ∧ 0x00000100#32 &&& 0xFFFFFFFF = 0x00000100 ∧
      0x00001000#32 &&& 0xFFFFFFFF = 0x00001000 ∧ 0x000011FF#32 &&& 0xFFFFFF00 = 0x00001100 ∧
      0x00001200#32 &&& 0xFFFFFFFF = 0x00001200 ∧ 0x00002000#32 &&& 0xFFFFFFFF = 0x00002000 ∧
      0x000021FF#32 &&& 0xFFFFFF00 = 0x00002100 ∧ 0x00002200#32 &&& 0xFFFFFFFF = 0x00002200 ∧
      0x000030FF#32 &&& 0xFFFFFF00 = 0x00003000 ∧ 0x000031FF#32 &&& 0xFFFFFF00 = 0x00003100) ∧
    (∀ r ∈ opcodeMap, 0x00003200#32 &&& r.mask ≠ r.mtch) ∧
    ((⟨.lutInv, 0x00003100, 0xFFFFFF00⟩ : Row) ∈ opcodeMap ∧
      Row.selects ⟨.lutInv, 0x00003100, 0xFFFFFF00⟩ 0x00003100 = true) := by decide

theorem witness_IllegalWordsAreThoseOfR75 :
    ({ State.reset with pending := [.write 0 4 0x0000FF00] } : State).pending = .write State.reset.base 4 0x0000FF00 :: [] ∧
    (∃ e, decode 0x0000FF00 = .error e) := ⟨rfl, _, rfl⟩

theorem witness_AssembledCommandsDecode :
    Mnemonic.takesOperand .clear = false ∧ Mnemonic.takesOperand .encByte = true ∧ (0 ≤ 255 ∧ 255 ≤ 255) ∧
    '~'.toNat < 128 ∧ 255 < 256 ∧ (128 ≤ 'ÿ'.toNat ∧ 'ÿ'.toNat ≤ 255) ∧ (128 ≤ 'Ā'.toNat ∧ 255 < 'Ā'.toNat) := by decide

theorem witness_ForwardTableClosedForm :
    (9 : Digit).val ≤ 9 ∧ 10 ≤ (10 : Digit).val ∧ 10 ≤ (35 : Digit).val ∧ (35 : Digit).val ≤ 35 := by decide

theorem witness_ForwardTableIsInjective : fwd 44 = fwd 44 := rfl

theorem witness_InverseTableEntries : (∀ d : Digit, fwd d ≠ 0x3B) ∧ (∀ d : Digit, fwd d ≠ 0x40) := by decide

theorem witness_TablesAreConsistent : (inv 0x3A).valid = true ∧ (inv 0x20).valid = true := by decide

theorem witness_LutFwdWritesTheSymbolOrTheMarker :
    (44 : Byte).toNat = (44 : Digit).val ∧ 44 < (45 : Byte).toNat ∧ 44 < (255 : Byte).toNat := by decide

theorem witness_LutInvWritesTheDigitOrTheMarker : fwd 44 = 0x3A ∧ (∀ d : Digit, fwd d ≠ 0x3B) := by decide

theorem witness_StepRunsTheDecodedCommand :
    ((resetWith (.write 0 4 0x00001141)).pending = .write (State.reset.base + 0x00) 4 0x00001141 :: [] ∧
      decode 0x00001141 = .ok (.encByte 0x41)) ∧
    ((resetWith (.write 0 4 0x00000001)).pending = .write (State.reset.base + 0x00) 4 0x00000001 :: [] ∧
      decode 0x00000001 = .error .operandNotAllowed) ∧
    ((resetWith (.read 0x3C 4)).pending = .read 0x3C 4 :: [] ∧ ∃ t, step (resetWith (.read 0x3C 4)) = .next t) :=
  ⟨⟨rfl, rfl⟩, ⟨rfl, rfl⟩, ⟨rfl, _, rfl⟩⟩

theorem witness_ClearWritesEveryRegister :
    ∃ t, exec .clear { State.reset with regs := { Regs.reset with badCmd := true } } = .next t ∧
      ({ Regs.reset with badCmd := true } : Regs).badCmd = true ∧ t.regs.badCmd = false := ⟨_, rfl, rfl, rfl⟩

theorem witness_NopChangesNothing : Instr.lutInv 0xFF ≠ .nop := by decide

/-- The last two hypotheses hold of ENC.START and of CLEAR. -/
theorem witness_EncStartDropsThePendingByte :
    (∃ t, exec .encStart { State.reset with regs := pendingA } = .next t ∧ pendingA.encPend = true ∧
      t.regs.encPend = false ∧ resultNout t.regs.result = 0) ∧
    (∃ t, exec .clear { State.reset with regs := pendingA } = .next t ∧ pendingA.encPend = true ∧
      t.regs.encPend = false ∧ resultNout t.regs.result = 0) :=
  ⟨⟨_, rfl, rfl, rfl, rfl⟩, _, rfl, rfl, rfl, rfl⟩

theorem witness_DecStartClearsTheSession :
    (∃ t, exec .decStart { State.reset with regs := failed } = .next t ∧ failed.err = true ∧ t.regs.err = false) ∧
    (∃ t, exec .clear { State.reset with regs := failed } = .next t ∧ failed.err = true ∧ t.regs.err = false) :=
  ⟨⟨_, rfl, rfl, rfl⟩, _, rfl, rfl, rfl⟩

theorem witness_DigitsOfAGroupValue :
    (65535 : Half).toNat = (15 : Digit).val + (16 : Digit).val * 45 + (32 : Digit).val * 2025 := by decide

theorem witness_GroupSymbolsByValue :
    ((2024 : Half).toNat = (44 : Digit).val + (44 : Digit).val * 45 + (0 : Digit).val * 2025 ∧ (2024 : Half).toNat < 2025) ∧
    ((2025 : Half).toNat = (0 : Digit).val + (0 : Digit).val * 45 + (1 : Digit).val * 2025 ∧ 2025 ≤ (2025 : Half).toNat) := by
  decide

theorem witness_EncByteHoldsOrCompletes :
    (State.reset).regs.encPend = false ∧ ({ State.reset with regs := pendingA } : State).regs.encPend = true := by decide

theorem witness_EncEndFlushesTheLoneByte :
    (State.reset).regs.encPend = false ∧ ({ State.reset with regs := pendingA } : State).regs.encPend = true := by decide

theorem witness_EncodeSessionComputesEncodeBytes :
    ∃ s : State, s.regs.encPend = false ∧
      (∀ p ∈ [((0x07 : Byte), [Instr.lutFwd 45, .decSym 0x3A]), (0xE9, [.decStart]), (0xFF, [])],
        ∀ i ∈ p.2, sparesEncoder i = true) ∧
      s.pending = encSession s.base [(0x07, [.lutFwd 45, .decSym 0x3A]), (0xE9, [.decStart]), (0xFF, [])] ++ [.reset] :=
  ⟨hostDoes (encSession 0 [(0x07, [.lutFwd 45, .decSym 0x3A]), (0xE9, [.decStart]), (0xFF, [])] ++ [.reset]),
    rfl, by decide, rfl⟩

theorem witness_OverflowOnlyAtTheThirdSymbol :
    (inGroup 0 0).Inv ∧ (inGroup 1 44).Inv ∧ (inGroup 2 0).Inv ∧ (inGroup 2 735).Inv ∧ (inGroup 2 736).Inv ∧
      (inGroup 2 2024).Inv := by
  refine ⟨?_, ?_, ?_, ?_, ?_, ?_⟩ <;> apply inGroup_inv <;> decide

theorem witness_ExtractedBytesByValue :
    ((0x0100 : Half).toNat = (0x01 : Byte).toNat * 256 + (0x00 : Byte).toNat ∧ (0x01 : Byte) ≠ 0) ∧
    ((0x00FF : Half).toNat = (0x00 : Byte).toNat * 256 + (0xFF : Byte).toNat) := by decide

theorem witness_DecSymTakesOneSymbol :
    failed.err = true ∧
    (Regs.reset.err = false ∧ ∀ d : Digit, fwd d ≠ 0x61) ∧
    ((inGroup 2 736).err = false ∧ fwd 32 = 0x57 ∧
      65535 < (inGroup 2 736).decAcc.toNat + (32 : Digit).val * 45 ^ (inGroup 2 736).decPos.toNat) ∧
    ((inGroup 1 44).err = false ∧ fwd 44 = 0x3A ∧
      (inGroup 1 44).decAcc.toNat + (44 : Digit).val * 45 ^ (inGroup 1 44).decPos.toNat ≤ 65535 ∧
      (inGroup 1 44).decPos.toNat < 2) ∧
    ((inGroup 2 735).err = false ∧ fwd 32 = 0x57 ∧
      (inGroup 2 735).decAcc.toNat + (32 : Digit).val * 45 ^ (inGroup 2 735).decPos.toNat ≤ 65535 ∧
      2 ≤ (inGroup 2 735).decPos.toNat) := by decide

theorem witness_DecEndCompletesTheFinalGroup :
    failed.err = true ∧ (Regs.reset.err = false ∧ Regs.reset.decPos = 0) ∧
    ((inGroup 1 44).err = false ∧ (inGroup 1 44).decPos ≠ 0) ∧
    ((inGroup 2 256).err = false ∧ (inGroup 2 256).decPos ≠ 0) := by decide

/-- Both clauses on the result: `FGW` gives 0xFF, 0xFF, and `:::` fails at 2. -/
theorem witness_DecodeSessionComputesDecodeToBytes :
    (∃ s : State, (∀ i ∈ [Instr.encByte 0x41], sparesDecoder i = true) ∧
      (∀ p ∈ [((0x46 : Byte), [Instr.lutInv 0x61]), (0x47, []), (0x57, [.encEnd])], ∀ i ∈ p.2, sparesDecoder i = true) ∧
      s.pending = (commandAndRead s.base .decStart [.encByte 0x41] ++
        decSession s.base [(0x46, [.lutInv 0x61]), (0x47, []), (0x57, [.encEnd])]) ++ []) ∧
    decodeToBytes [0x46, 0x47, 0x57] = .ok [0xFF, 0xFF] ∧
    (∃ s : State, s.pending = (commandAndRead s.base .decStart [] ++
      decSession s.base [(0x3A, []), (0x3A, []), (0x3A, [])]) ++ []) ∧
    decodeToBytes [0x3A, 0x3A, 0x3A] = .error (.overflow, 2) :=
  ⟨⟨hostDoes (commandAndRead 0 .decStart [.encByte 0x41] ++
      decSession 0 [(0x46, [.lutInv 0x61]), (0x47, []), (0x57, [.encEnd])]), by decide, by decide, rfl⟩, rfl,
    ⟨hostDoes (commandAndRead 0 .decStart [] ++ decSession 0 [(0x3A, []), (0x3A, []), (0x3A, [])]), rfl⟩, rfl⟩

theorem witness_HostMacrosComputeTheirOperations :
    (∃ s : State, s.pending = encBytesMacro s.base [0x41, 0x42, 0xFF] ++ []) ∧
    (∃ s : State, s.regs.encPend = false ∧ s.pending = encPair s.base 0x41 0x42 ++ []) ∧
    (∃ s : State, s.pending = decTextMacro s.base [0x3A, 0x3A, 0x3A] ++ []) :=
  ⟨⟨hostDoes (encBytesMacro 0 [0x41, 0x42, 0xFF]), rfl⟩,
    ⟨hostDoes (encPair 0 0x41 0x42), rfl, rfl⟩,
    ⟨hostDoes (decTextMacro 0 [0x3A, 0x3A, 0x3A]), rfl⟩⟩

theorem witness_RoundTripUnderTheCondition :
    (∀ k, 2 * k + 2 < [(0x07 : Byte), 0xE9, 0x01, 0x00].length →
      2025 ≤ (([(0x07 : Byte), 0xE9, 0x01, 0x00][2 * k]?).getD 0).toNat * 256 +
        (([(0x07 : Byte), 0xE9, 0x01, 0x00][2 * k + 1]?).getD 0).toNat) ∧
    [(0x07 : Byte), 0xE9, 0x01, 0x00].length % 2 = 0 ∧
    ([(0x07 : Byte), 0xE9, 0x01, 0x00][[(0x07 : Byte), 0xE9, 0x01, 0x00].length - 2]?).getD 0 ≠ 0 := by
  refine ⟨fun k hk => ?_, by decide, by decide⟩
  obtain rfl : k = 0 := by simp at hk; omega
  decide

/-- A lowercase code, written in a good session and in a failed one. -/
theorem witness_OnlyDecSymRecordsADecodeError :
    (∃ t, exec (.decSym 0x61) State.reset = .next t ∧ State.reset.regs.err = false ∧ t.regs.err = true) ∧
    (∃ t, exec (.decSym 0x61) { State.reset with regs := failed } = .next t ∧ failed.err = true ∧ t.regs.err = true) :=
  ⟨⟨_, rfl, rfl, rfl⟩, _, rfl, rfl, rfl⟩

theorem witness_FirstErrorSticks :
    failed.err = true ∧ sparesDecoder (.lutInv 0x61) = true ∧ ∃ t, exec (.lutInv 0x61) State.reset = .next t :=
  ⟨rfl, rfl, _, rfl⟩

theorem witness_IllegalWordSetsBadCmdOnly :
    (decode 0x00010000 = .error .reservedNonzero ∧
      (resetWith (.write 0 4 0x00010000)).pending = .write State.reset.base 4 0x00010000 :: []) ∧
    (∃ t, exec .nop State.reset = .next t ∧ Instr.nop ≠ .clear) :=
  ⟨⟨rfl, rfl⟩, _, rfl, by decide⟩

/-- Each flag set by a command, and each cleared by one. -/
theorem witness_FlagsHaveOnlyTheirWriters :
    (∃ t, exec (.encByte 1) State.reset = .next t ∧ State.reset.regs.encPend = false ∧ t.regs.encPend = true) ∧
    (∃ t, exec .encEnd { State.reset with regs := pendingA } = .next t ∧ pendingA.encPend = true ∧
      t.regs.encPend = false) ∧
    (∃ t, exec (.decSym 0xFF) State.reset = .next t ∧ State.reset.regs.err = false ∧ t.regs.err = true) ∧
    (∃ t, exec .decStart { State.reset with regs := failed } = .next t ∧ failed.err = true ∧ t.regs.err = false) ∧
    (∃ t, exec .encEnd { State.reset with regs := { Regs.reset with badCmd := true } } = .next t ∧ t.regs.badCmd = true) ∧
    (∃ t, exec .clear { State.reset with regs := { Regs.reset with badCmd := true } } = .next t ∧ t.regs.badCmd = false) ∧
    (∃ t, exec (.lutFwd 45) State.reset = .next t ∧ resultLinv t.regs.result = true) :=
  ⟨⟨_, rfl, rfl, rfl⟩, ⟨_, rfl, rfl, rfl⟩, ⟨_, rfl, rfl, rfl⟩, ⟨_, rfl, rfl, rfl⟩, ⟨_, rfl, rfl⟩, ⟨_, rfl, rfl⟩,
    ⟨_, rfl, rfl⟩⟩

/-- Two register sets that agree on what the command's pipeline reads, and differ elsewhere. -/
theorem witness_PipelinesAreIndependent :
    (∃ t₁ t₂, exec (.lutInv 0x42) { State.reset with regs := failed } = .next t₁ ∧
      exec (.lutInv 0x42) { State.reset with regs := pendingA } = .next t₂) ∧
    (Regs.reset.encPend = failed.encPend ∧ Regs.reset.encPbyte = failed.encPbyte ∧
      ∃ t₁ t₂, exec (.encByte 1) { State.reset with regs := Regs.reset } = .next t₁ ∧
        exec (.encByte 1) { State.reset with regs := failed } = .next t₂) ∧
    ({ Regs.reset with
        encPend := pendingA.encPend, encPbyte := pendingA.encPbyte
        badCmd := pendingA.badCmd, result := pendingA.result } = pendingA ∧
      ∃ t₁ t₂, exec (.decSym 0x42) { State.reset with regs := Regs.reset } = .next t₁ ∧
        exec (.decSym 0x42) { State.reset with regs := pendingA } = .next t₂) :=
  ⟨⟨_, _, rfl, rfl⟩, ⟨rfl, rfl, _, _, rfl, rfl⟩, rfl, _, _, rfl, rfl⟩

theorem witness_ResultIsASingleSlot :
    (Instr.lutFwd 45 ≠ .nop) ∧ decode 0x00000001 = .error .operandNotAllowed ∧
    (resetWith (.write 0 4 0x00000001)).pending = .write State.reset.base 4 0x00000001 :: [] ∧
    ∃ t, step (resetWith (.write 0 4 0x00000001)) = .next t :=
  ⟨by decide, rfl, rfl, _, rfl⟩

theorem witness_RegisterMap :
    ((0x3C < 0x40 ∧ 0x3C % 4 = 0) ∧ (resetWith (.read 0x3C 4)).pending = .read (State.reset.base + 0x3C) 4 :: []) ∧
    ((0x00 < 0x40 ∧ 0x00 % 4 = 0) ∧
      (resetWith (.write 0x00 4 0xFFFFFFFF)).pending = .write (State.reset.base + 0x00) 4 0xFFFFFFFF :: []) ∧
    ((0x18 < 0x40 ∧ 0x18 % 4 = 0) ∧
      (resetWith (.write 0x18 4 0xFFFFFFFF)).pending = .write (State.reset.base + 0x18) 4 0xFFFFFFFF :: []) :=
  ⟨⟨by decide, rfl⟩, ⟨by decide, rfl⟩, ⟨by decide, rfl⟩⟩

theorem witness_ReadsHaveNoSideEffect :
    ∃ t, ({ State.reset with pending := [.read 0x08 4, .read 0x08 4] } : State).pending =
      .read 0x08 4 :: .read 0x08 4 :: [] ∧
    step { State.reset with pending := [.read 0x08 4, .read 0x08 4] } = .next t :=
  ⟨_, rfl, rfl⟩

theorem witness_AccessesOutsideTheContractAreRefused :
    ((0x3F < 0x40) ∧ (resetWith (.read 0x3F 1)).pending = .read (State.reset.base + 0x3F) 1 :: [] ∧ 1 ≠ 4) ∧
    ((0x3E < 0x40) ∧ (resetWith (.write 0x3E 4 0)).pending = .write (State.reset.base + 0x3E) 4 0 :: [] ∧ 0x3E % 4 ≠ 0) :=
  ⟨⟨by decide, rfl, by decide⟩, by decide, rfl, by decide⟩

theorem witness_AccessesOutsideEveryWindowAreRefused :
    ¬ (resetWith (.read 0x40 4)).mapped 0x40 ∧ (resetWith (.read 0x40 4)).pending = .read 0x40 4 :: [] ∧
    ¬ (resetWith (.write 0x40 4 0)).mapped 0x40 ∧ (resetWith (.write 0x40 4 0)).pending = .write 0x40 4 0 :: [] := by
  refine ⟨?_, rfl, ?_, rfl⟩ <;>
    simp [State.mapped, State.blocks, resetWith, hostDoes, State.reset, Config.resetBase]

theorem witness_ResetAndClearAgree : (resetWith .reset).pending = .reset :: [] := rfl

/-- A command to the second block leaves the first alone. -/
theorem witness_BlocksShareNothing :
    ({ twoBlocks with pending := [.write 0x40 4 0x00001142] } : State).pending = .write 0x40 4 0x00001142 :: [] ∧
    (∃ t, step { twoBlocks with pending := [.write 0x40 4 0x00001142] } = .next t) ∧
    twoBlocks.blocks[0]? = some ⟨0, Regs.reset⟩ ∧ ¬ (0 ≤ 0x40 ∧ 0x40 < 0 + 0x40) :=
  ⟨rfl, ⟨_, rfl⟩, rfl, by decide⟩

theorem witness_PeersRunTheSameCommands :
    State.Inv { twoBlocks with pending := [.write 0x40 4 0x00001142] } ∧
    twoBlocks.peers[0]? = some ⟨0x40, pendingA⟩ ∧ decode 0x00001142 = .ok (.encByte 0x42) :=
  ⟨twoBlocks_inv _, rfl, rfl⟩

theorem witness_StepKeepsTheInvariants :
    State.Inv { twoBlocks with pending := [.write 0x40 4 0x00001142] } ∧
    ∃ t, step { twoBlocks with pending := [.write 0x40 4 0x00001142] } = .next t :=
  ⟨twoBlocks_inv _, _, rfl⟩

theorem witness_ContractKeepingRunsComplete :
    State.Inv { twoBlocks with pending := [.write 0x40 4 0x00001142, .reset, .read 0x3C 4] } ∧
    State.hostKeepsContract { twoBlocks with pending := [.write 0x40 4 0x00001142, .reset, .read 0x3C 4] } := by
  refine ⟨twoBlocks_inv _, ?_⟩
  simp [State.hostKeepsContract, State.onContract, State.mapped, State.blocks, twoBlocks, State.reset, Config.resetBase]

theorem witness_OnlyContractBreachesStopAStep :
    State.Inv { twoBlocks with pending := [.read 0x42 4] } ∧
    step { twoBlocks with pending := [.read 0x42 4] } = .refused (.misaligned 2) :=
  ⟨twoBlocks_inv _, rfl⟩

theorem witness_IdleBlockDoesNotAct : State.reset.pending = [] := rfl

end Sys2Proof.Tests
end

section
/-! The idle step: what `step` does when the host has no event pending (spec 00_scope.md R12, log entry 3). -/

namespace Sys2Proof.Machine

/-- The companion of `step_cons` for a host that does nothing. -/
theorem step_nil {s : State} (h : s.pending = []) : step s = .next s := by
  simp [step, nextEvent, h]

/-- Settles O51: the idle step is the empty case of the step's equations. -/
theorem idleBlockDoesNotAct : Obligations.IdleBlockDoesNotAct :=
  fun _ => step_nil

end Sys2Proof.Machine
end

section
/-! The layouts of RESULT and STATUS (spec 10_state.md R28, R29): what each field of the two words holds. -/

namespace Sys2Proof.Machine

/-- The fields of a RESULT word as numbers. -/
theorem resultOut_toNat (w : Word) (k : Nat) : (resultOut w k).toNat = w.toNat / 2 ^ (8 * k) % 2 ^ 8 := by
  rw [resultOut, BitVec.extractLsb'_toNat, Nat.shiftRight_eq_div_pow]

theorem resultNout_toNat (w : Word) : (resultNout w).toNat = w.toNat / 2 ^ 24 % 2 ^ 2 := by
  rw [resultNout, BitVec.extractLsb'_toNat, Nat.shiftRight_eq_div_pow]

@[simp] theorem resultOut_resultWord_zero (o : Outputs) : resultOut (resultWord o) 0 = slotValue o.n 0 o.o0 := by
  apply BitVec.eq_of_toNat_eq
  rw [resultOut_toNat, resultWord_toNat]
  omega

@[simp] theorem resultOut_resultWord_one (o : Outputs) : resultOut (resultWord o) 1 = slotValue o.n 1 o.o1 := by
  apply BitVec.eq_of_toNat_eq
  rw [resultOut_toNat, resultWord_toNat]
  omega

@[simp] theorem resultOut_resultWord_two (o : Outputs) : resultOut (resultWord o) 2 = slotValue o.n 2 o.o2 := by
  apply BitVec.eq_of_toNat_eq
  rw [resultOut_toNat, resultWord_toNat]
  omega

/-- From bit 24 up the word holds NOUT alone: LINV and the reserved bits are 0. -/
theorem resultWord_div (o : Outputs) : (resultWord o).toNat / 2 ^ 24 = o.n.toNat := by
  rw [resultWord_toNat]
  omega

@[simp] theorem resultNout_resultWord (o : Outputs) : resultNout (resultWord o) = o.n := by
  apply BitVec.eq_of_toNat_eq
  rw [resultNout_toNat, resultWord_div]
  omega

@[simp] theorem resultLinv_resultWord (o : Outputs) : resultLinv (resultWord o) = false := by
  have h : (resultWord o).toNat / 2 ^ 26 = 0 := by have := resultWord_div o; omega
  rw [resultLinv, BitVec.getLsbD, Nat.testBit_eq_decide_div_mod_eq, h]
  rfl

theorem resultWord_reserved (o : Outputs) : (resultWord o).extractLsb' 27 5 = 0 := by
  have h : (resultWord o).toNat / 2 ^ 27 = 0 := by have := resultWord_div o; omega
  apply BitVec.eq_of_toNat_eq
  rw [BitVec.extractLsb'_toNat, Nat.shiftRight_eq_div_pow, h]
  rfl

/-- Settles O37: each field of the word is read off its number. -/
theorem resultLayout : Obligations.ResultLayout := fun o =>
  ⟨resultOut_resultWord_zero o, resultOut_resultWord_one o, resultOut_resultWord_two o, resultWord_div o,
    resultNout_resultWord o, resultLinv_resultWord o⟩

/-- The number of a STATUS word, field by field. -/
theorem statusWord_toNat (r : Regs) :
    (statusWord r).toNat = r.encPend.toNat + r.decPos.toNat * 2 + r.err.toNat * 2 ^ 3 + r.errKind.code.toNat * 2 ^ 4 +
      r.badCmd.toNat * 2 ^ 6 + r.encPbyte.toNat * 2 ^ 8 := by
  simp only [statusWord, append_toNat, BitVec.toNat_ofBool, BitVec.toNat_ofNat]
  omega

/-- Settles O39: the number of the word, and the four codes as the model defines them. -/
theorem statusLayout : Obligations.StatusLayout := fun r =>
  ⟨statusWord_toNat r, rfl, rfl, rfl, rfl⟩

end Sys2Proof.Machine
end

section
/-! What each command leaves in the registers, said once per command with a branch, and from it which commands leave the
encoder, the decoder and BADCMD alone (spec 10_state.md R38). -/

namespace Sys2Proof.Machine

/-- The decoder's registers at a place of a group, with the group's value so far, after n symbols. -/
def decGroup (pos : BitVec 2) (acc : Half) (n : Word) (r : Regs) : Regs :=
  { r with decPos := pos, decAcc := acc, decCnt := n }

theorem encByteRegs_cases (b : Byte) (r : Regs) :
    (r.encPend = true ∧ encByteRegs b r = emit (encGroup (pairValue r.encPbyte b)) (encEmpty r)) ∨
    (r.encPend = false ∧ encByteRegs b r = emitNone { r with encPend := true, encPbyte := b }) := by
  cases h : r.encPend with
  | true => exact .inl ⟨rfl, by simp [encByteRegs, h]⟩
  | false => exact .inr ⟨rfl, by simp [encByteRegs, h]⟩

theorem encEndRegs_cases (r : Regs) :
    (r.encPend = true ∧ encEndRegs r = emit (encGroup (loneValue r.encPbyte)) (encEmpty r)) ∨
    (r.encPend = false ∧ encEndRegs r = emitNone (encEmpty r)) := by
  cases h : r.encPend with
  | true => exact .inl ⟨rfl, by simp [encEndRegs, h]⟩
  | false => exact .inr ⟨rfl, by simp [encEndRegs, h]⟩

/-- A digit joins the group, or, as its third, completes it. -/
theorem acceptDigit_cases (d : Nat) (r : Regs) :
    (r.decPos.toNat < 2 ∧ acceptDigit d r = emitNone (decGroup (r.decPos + 1)
        (BitVec.ofNat 16 (r.decAcc.toNat + partialTerm d r.decPos.toNat)) (r.decCnt + 1) r)) ∨
    (2 ≤ r.decPos.toNat ∧ acceptDigit d r =
      emit (extract (BitVec.ofNat 16 (r.decAcc.toNat + partialTerm d r.decPos.toNat))) (decGroup 0 0 (r.decCnt + 1) r)) := by
  by_cases h : r.decPos.toNat < 2
  · exact .inl ⟨h, if_pos h⟩
  · exact .inr ⟨by omega, if_neg h⟩

/-- DEC.END ignores a failed session, and else ends the group, with its bytes if it has begun. -/
theorem decEndRegs_cases (r : Regs) :
    (r.err = true ∧ decEndRegs r = emitNone r) ∨
    (r.err = false ∧ r.decPos = 0 ∧ decEndRegs r = emitNone (decGroup 0 0 0 r)) ∨
    (r.err = false ∧ r.decPos ≠ 0 ∧ decEndRegs r = emit (extract r.decAcc) (decGroup 0 0 0 r)) := by
  cases he : r.err with
  | true => exact .inl ⟨rfl, by simp [decEndRegs, he]⟩
  | false =>
    by_cases hp : r.decPos = 0
    · exact .inr (.inl ⟨rfl, hp, by simp only [decEndRegs, he, if_pos hp]; rfl⟩)
    · exact .inr (.inr ⟨rfl, hp, by simp only [decEndRegs, he, if_neg hp]; rfl⟩)

theorem lutFwdRegs_cases (n : Byte) (r : Regs) :
    (∃ d : Digit, d.val = n.toNat ∧ lutFwdRegs n r = emit ⟨fwd d, 0x00, 0x00, 1⟩ r) ∨
    (44 < n.toNat ∧ lutFwdRegs n r = emitInvalid r) := by
  by_cases h : n.toNat < 45
  · exact .inl ⟨⟨n.toNat, h⟩, rfl, dif_pos h⟩
  · exact .inr ⟨by omega, dif_neg h⟩

theorem lutInvRegs_cases (c : Byte) (r : Regs) :
    (∃ d : Digit, fwd d = c ∧ lutInvRegs c r = emit ⟨(BitVec.ofNat 6 d.val).setWidth 8, 0x00, 0x00, 1⟩ r) ∨
    ((∀ d : Digit, fwd d ≠ c) ∧ lutInvRegs c r = emitInvalid r) := by
  rcases inv_cases c with ⟨d, hd, hi⟩ | ⟨hn, hi⟩
  · exact .inl ⟨d, hd, by simp [lutInvRegs, hi]⟩
  · exact .inr ⟨hn, by simp [lutInvRegs, hi]⟩

/-- `emit()` is the emit of no outputs. -/
theorem emitNone_eq_emit (r : Regs) : emitNone r = emit ⟨0, 0, 0, 0⟩ r := rfl

/-- A decoder command or a lookup leaves the encoder and BADCMD alone. -/
theorem commandRegs_of_sparesEncoder {i : Instr} (h : sparesEncoder i = true) (r : Regs) :
    ∃ pos acc cnt e k p w, commandRegs i r =
      { r with decPos := pos, decAcc := acc, decCnt := cnt, err := e, errKind := k, errPos := p, result := w } := by
  cases i with
  | decStart => exact ⟨_, _, _, _, _, _, _, rfl⟩
  | decSym c =>
    rcases decSymRegs_cases c r with ⟨-, hr⟩ | ⟨-, -, hr⟩ | ⟨d, -, -, -, hr⟩ | ⟨d, -, -, -, hr⟩
    · exact ⟨_, _, _, _, _, _, _, hr⟩
    · exact ⟨_, _, _, _, _, _, _, hr⟩
    · exact ⟨_, _, _, _, _, _, _, hr⟩
    · rcases acceptDigit_cases d r with ⟨-, ha⟩ | ⟨-, ha⟩
      · exact ⟨_, _, _, _, _, _, _, hr.trans ha⟩
      · exact ⟨_, _, _, _, _, _, _, hr.trans ha⟩
  | decEnd =>
    rcases decEndRegs_cases r with ⟨-, hr⟩ | ⟨-, -, hr⟩ | ⟨-, -, hr⟩ <;> exact ⟨_, _, _, _, _, _, _, hr⟩
  | lutFwd n => rcases lutFwdRegs_cases n r with ⟨d, -, hr⟩ | ⟨-, hr⟩ <;> exact ⟨_, _, _, _, _, _, _, hr⟩
  | lutInv c => rcases lutInvRegs_cases c r with ⟨d, -, hr⟩ | ⟨-, hr⟩ <;> exact ⟨_, _, _, _, _, _, _, hr⟩
  | nop | clear | encStart | encByte b | encEnd => cases h

/-- An encoder command or a lookup leaves the decoder, the error record and BADCMD alone. -/
theorem commandRegs_of_sparesDecoder {i : Instr} (h : sparesDecoder i = true) (r : Regs) :
    ∃ p x w, commandRegs i r = { r with encPend := p, encPbyte := x, result := w } := by
  cases i with
  | encStart => exact ⟨_, _, _, rfl⟩
  | encByte b => rcases encByteRegs_cases b r with ⟨-, hr⟩ | ⟨-, hr⟩ <;> exact ⟨_, _, _, hr⟩
  | encEnd => rcases encEndRegs_cases r with ⟨-, hr⟩ | ⟨-, hr⟩ <;> exact ⟨_, _, _, hr⟩
  | lutFwd n => rcases lutFwdRegs_cases n r with ⟨d, -, hr⟩ | ⟨-, hr⟩ <;> exact ⟨_, _, _, hr⟩
  | lutInv c => rcases lutInvRegs_cases c r with ⟨d, -, hr⟩ | ⟨-, hr⟩ <;> exact ⟨_, _, _, hr⟩
  | nop | clear | decStart | decSym c | decEnd => cases h

end Sys2Proof.Machine
end

section
/-! The flags ENC_PEND, ERR, BADCMD and LINV, and the commands that write them (spec 10_state.md R38). -/

namespace Sys2Proof.Machine

theorem commandRegs_encPend {i : Instr} (h : sparesEncoder i = true) (r : Regs) :
    (commandRegs i r).encPend = r.encPend := by
  obtain ⟨_, _, _, _, _, _, _, hr⟩ := commandRegs_of_sparesEncoder h r
  rw [hr]

theorem commandRegs_err {i : Instr} (h : sparesDecoder i = true) (r : Regs) : (commandRegs i r).err = r.err := by
  obtain ⟨_, _, _, hr⟩ := commandRegs_of_sparesDecoder h r
  rw [hr]

/-- ENC_PEND is kept, written by ENC.BYTE, or cleared. -/
theorem commandRegs_encPend_cases (i : Instr) (r : Regs) :
    (commandRegs i r).encPend = r.encPend ∨ (∃ b, i = .encByte b) ∨
    ((i = .encEnd ∨ i = .encStart ∨ i = .clear) ∧ (commandRegs i r).encPend = false) := by
  cases i with
  | nop => exact .inl rfl
  | encByte b => exact .inr (.inl ⟨b, rfl⟩)
  | encEnd =>
    rcases encEndRegs_cases r with ⟨-, hr⟩ | ⟨-, hr⟩ <;>
      exact .inr (.inr ⟨.inl rfl, congrArg Regs.encPend hr⟩)
  | encStart => exact .inr (.inr ⟨.inr (.inl rfl), rfl⟩)
  | clear => exact .inr (.inr ⟨.inr (.inr rfl), rfl⟩)
  | decStart | decSym c | decEnd | lutFwd n | lutInv c => exact .inl (commandRegs_encPend rfl r)

/-- ERR is kept, set by DEC.SYM, or cleared. -/
theorem commandRegs_err_cases (i : Instr) (r : Regs) :
    (commandRegs i r).err = r.err ∨ ((∃ c, i = .decSym c) ∧ (commandRegs i r).err = true) ∨
    ((i = .decStart ∨ i = .clear) ∧ (commandRegs i r).err = false) := by
  cases i with
  | nop => exact .inl rfl
  | decStart => exact .inr (.inr ⟨.inl rfl, rfl⟩)
  | clear => exact .inr (.inr ⟨.inr rfl, rfl⟩)
  | decSym c =>
    rcases decSymRegs_cases c r with ⟨-, hr⟩ | ⟨-, -, hr⟩ | ⟨d, -, -, -, hr⟩ | ⟨d, -, -, -, hr⟩
    · exact .inl (congrArg Regs.err hr :)
    · exact .inr (.inl ⟨⟨c, rfl⟩, congrArg Regs.err hr⟩)
    · exact .inr (.inl ⟨⟨c, rfl⟩, congrArg Regs.err hr⟩)
    · rcases acceptDigit_cases d r with ⟨-, ha⟩ | ⟨-, ha⟩ <;> exact .inl (congrArg Regs.err (hr.trans ha) :)
  | decEnd =>
    rcases decEndRegs_cases r with ⟨-, hr⟩ | ⟨-, -, hr⟩ | ⟨-, -, hr⟩ <;> exact .inl (congrArg Regs.err hr :)
  | encStart | encByte b | encEnd | lutFwd n | lutInv c => exact .inl (commandRegs_err rfl r)

/-- A command but CLEAR is NOP or belongs to one pipeline, and so leaves BADCMD alone. -/
theorem commandRegs_badCmd {i : Instr} (h : i ≠ .clear) (r : Regs) : (commandRegs i r).badCmd = r.badCmd := by
  have hi : i = .nop ∨ sparesEncoder i = true ∨ sparesDecoder i = true := by
    cases i <;> simp [sparesEncoder, sparesDecoder] at h ⊢
  rcases hi with rfl | hi | hi
  · rfl
  · obtain ⟨_, _, _, _, _, _, _, hr⟩ := commandRegs_of_sparesEncoder hi r
    rw [hr]
  · obtain ⟨_, _, _, hr⟩ := commandRegs_of_sparesDecoder hi r
    rw [hr]

@[simp] theorem resultLinv_zero : resultLinv 0#32 = false := rfl

/-- Only a lookup writes a word with LINV = 1: every other command but NOP emits outputs, or none. -/
theorem resultLinv_commandRegs {i : Instr} {r : Regs} (h : resultLinv (commandRegs i r).result = true) :
    (i = .nop ∧ resultLinv r.result = true) ∨
    (∃ n : Byte, i = .lutFwd n ∧ 44 < n.toNat) ∨ (∃ c : Byte, i = .lutInv c ∧ ∀ d : Digit, fwd d ≠ c) := by
  cases i with
  | nop => exact .inl ⟨rfl, h⟩
  | clear | encStart | decStart => cases resultLinv_zero.symm.trans h
  | encByte b => rcases encByteRegs_cases b r with ⟨-, hr⟩ | ⟨-, hr⟩ <;> simp [commandRegs, hr] at h
  | encEnd => rcases encEndRegs_cases r with ⟨-, hr⟩ | ⟨-, hr⟩ <;> simp [commandRegs, hr] at h
  | decSym c =>
    rcases decSymRegs_cases c r with ⟨-, hr⟩ | ⟨-, -, hr⟩ | ⟨d, -, -, -, hr⟩ | ⟨d, -, -, -, hr⟩
    · simp [commandRegs, hr] at h
    · simp [commandRegs, hr] at h
    · simp [commandRegs, hr] at h
    · rcases acceptDigit_cases d r with ⟨-, ha⟩ | ⟨-, ha⟩ <;> simp [commandRegs, hr, ha] at h
  | decEnd =>
    rcases decEndRegs_cases r with ⟨-, hr⟩ | ⟨-, -, hr⟩ | ⟨-, -, hr⟩ <;> simp [commandRegs, hr] at h
  | lutFwd n =>
    rcases lutFwdRegs_cases n r with ⟨d, -, hr⟩ | ⟨hn, -⟩
    · simp [commandRegs, hr] at h
    · exact .inr (.inl ⟨n, rfl, hn⟩)
  | lutInv c =>
    rcases lutInvRegs_cases c r with ⟨d, -, hr⟩ | ⟨hn, -⟩
    · simp [commandRegs, hr] at h
    · exact .inr (.inr ⟨c, rfl, hn⟩)

/-- Settles O34, flag by flag. -/
theorem flagsHaveOnlyTheirWriters : Obligations.FlagsHaveOnlyTheirWriters := by
  intro i s t h
  obtain rfl := exec_next_iff.mp h
  simp only [State.onRegs_regs]
  have hp := commandRegs_encPend_cases i s.regs
  have he := commandRegs_err_cases i s.regs
  refine ⟨fun h0 h1 => ?_, fun h1 h0 => ?_, fun h0 h1 => ?_, fun h1 h0 => ?_, fun h1 => ?_, fun h1 h0 => ?_,
    resultLinv_commandRegs⟩
  · rcases hp with hk | hb | ⟨-, hc⟩ <;> simp_all
  · rcases hp with hk | hb | ⟨hi, -⟩ <;> simp_all
  · rcases he with hk | ⟨hi, -⟩ | ⟨-, hc⟩ <;> simp_all
  · rcases he with hk | ⟨-, hc⟩ | ⟨hi, -⟩ <;> simp_all
  · by_cases hi : i = .clear
    · subst hi
      cases h1
    · rwa [commandRegs_badCmd hi] at h1
  · by_contra hi
    rw [commandRegs_badCmd hi, h1] at h0
    cases h0

end Sys2Proof.Machine
end

section
/-! Every command, and so every step, keeps the invariants of the registers and of the windows (spec 10_state.md R23, R24,
R26, R28, R30, R31; 20_memory.md R50), and reset establishes them (R37). -/

namespace Sys2Proof.Machine

/-- An emit's word meets R28. -/
theorem Regs.Inv.emit {r : Regs} (h : r.Inv) (o : Outputs) : (emit o r).Inv :=
  { h with
    result_reserved := resultWord_reserved o
    result_slots := fun k hk hn => by
      have hn' : o.n.toNat ≤ k := by simpa using hn
      obtain rfl | rfl | rfl : k = 0 ∨ k = 1 ∨ k = 2 := by omega
      · exact (resultOut_resultWord_zero o).trans (if_neg (by omega))
      · exact (resultOut_resultWord_one o).trans (if_neg (by omega))
      · exact (resultOut_resultWord_two o).trans (if_neg (by omega))
    result_linv := fun hl => by cases (resultLinv_resultWord o).symm.trans hl }

theorem Regs.Inv.emitNone {r : Regs} (h : r.Inv) : (emitNone r).Inv :=
  emitNone_eq_emit r ▸ h.emit _

theorem Regs.Inv.emitInvalid {r : Regs} (h : r.Inv) : (emitInvalid r).Inv :=
  { h with
    result_reserved := by simp only [emitInvalid_result]; decide
    result_slots := by simp only [emitInvalid_result]; decide
    result_linv := by simp only [emitInvalid_result]; decide }

/-- An empty accumulator holds the byte 0 (R23). -/
theorem Regs.Inv.encEmpty {r : Regs} (h : r.Inv) : (encEmpty r).Inv := { h with idle_pbyte := fun _ => rfl }

/-- While a byte is pending, R23 asks nothing of it. -/
theorem Regs.Inv.encHold {r : Regs} (h : r.Inv) (b : Byte) : Regs.Inv { r with encPend := true, encPbyte := b } :=
  { h with idle_pbyte := fun hp => by cases hp }

/-- The bound R26 gives a group's value at each of its three places. -/
def GroupBound (pos : BitVec 2) (acc : Half) : Prop :=
  (pos = 0 ∧ acc = 0) ∨ (pos = 1 ∧ acc.toNat ≤ 44) ∨ (pos = 2 ∧ acc.toNat ≤ 2024)

theorem Regs.Inv.groupBound {r : Regs} (h : r.Inv) : GroupBound r.decPos r.decAcc := by
  have hp := h.pos_le
  obtain h0 | h1 | h2 : r.decPos = 0 ∨ r.decPos = 1 ∨ r.decPos = 2 := by bv_omega
  · exact .inl ⟨h0, h.acc_at_0 h0⟩
  · exact .inr (.inl ⟨h1, h.acc_at_1 h1⟩)
  · exact .inr (.inr ⟨h2, h.acc_at_2 h2⟩)

/-- The sum at the first two places of a group is too small to overflow (R141). -/
theorem Regs.Inv.decPos_of_overflows {r : Regs} (h : r.Inv) (d : Digit)
    (ho : overflows d.val r.decPos.toNat r.decAcc.toNat = true) : r.decPos = 2 := by
  have hd := d.isLt
  rcases h.groupBound with ⟨hp, ha⟩ | ⟨hp, ha⟩ | ⟨hp, -⟩
  · simp [overflows, partialTerm, hp, ha] at ho
    omega
  · simp [overflows, partialTerm, hp] at ho
    omega
  · exact hp

/-- A first digit is at most 44, and a second makes at most 44 + 44 * 45 = 2024. -/
theorem GroupBound.accept {pos : BitVec 2} {acc : Half} (h : GroupBound pos acc) (hp : pos.toNat < 2) (d : Digit) :
    GroupBound (pos + 1) (BitVec.ofNat 16 (acc.toNat + partialTerm d.val pos.toNat)) := by
  have hd := d.isLt
  rcases h with ⟨rfl, rfl⟩ | ⟨rfl, ha⟩ | ⟨rfl, -⟩
  · refine .inr (.inl ⟨rfl, ?_⟩)
    refine (BitVec.toNat_ofNat _ 16).trans_le ((Nat.mod_le _ _).trans ?_)
    change 0 + d.val * 45 ^ 0 ≤ 44
    omega
  · refine .inr (.inr ⟨rfl, ?_⟩)
    refine (BitVec.toNat_ofNat _ 16).trans_le ((Nat.mod_le _ _).trans ?_)
    change acc.toNat + d.val * 45 ^ 1 ≤ 2024
    omega
  · simp at hp

/-- While there is no error, the decoder may stand at any place of a group within its bound, after any number of symbols. -/
theorem Regs.Inv.decGroup {r : Regs} (h : r.Inv) (he : r.err = false) {pos : BitVec 2} {acc : Half}
    (hb : GroupBound pos acc) (n : Word) : (decGroup pos acc n r).Inv :=
  { h with
    pos_le := by rcases hb with ⟨rfl, -⟩ | ⟨rfl, -⟩ | ⟨rfl, -⟩ <;> simp [Machine.decGroup]
    acc_at_0 := by rcases hb with ⟨rfl, rfl⟩ | ⟨rfl, -⟩ | ⟨rfl, -⟩ <;> simp [Machine.decGroup]
    acc_at_1 := by rcases hb with ⟨rfl, rfl⟩ | ⟨rfl, ha⟩ | ⟨rfl, -⟩ <;> simp [Machine.decGroup, *]
    acc_at_2 := by rcases hb with ⟨rfl, rfl⟩ | ⟨rfl, -⟩ | ⟨rfl, ha⟩ <;> simp [Machine.decGroup, *]
    overflow_pos := fun hk => by cases (h.kind_none.mp he).symm.trans hk
    errPos_set := fun he' => by cases he.symm.trans he' }

/-- The decoder between two groups. -/
theorem Regs.Inv.decGroup_zero {r : Regs} (h : r.Inv) (he : r.err = false) (n : Word) : (Machine.decGroup 0 0 n r).Inv :=
  h.decGroup he (.inl ⟨rfl, rfl⟩) n

/-- A recorded error has a kind, the position of the failing symbol, and, for an overflow, the third place (R30, R31). -/
theorem Regs.Inv.raiseDecodeError {r : Regs} (h : r.Inv) {k : ErrKind} (hk : k = .invalidSymbol ∨ k = .overflow)
    (hp : k = .overflow → r.decPos = 2) : (raiseDecodeError k r).Inv :=
  { h.emitNone with
    kind_none := by rcases hk with rfl | rfl <;> simp
    kind_raised := fun _ => hk
    overflow_pos := hp
    errPos_set := fun _ => rfl
    errPos_clear := fun he => by cases he }

/-- BADCMD is in no invariant. -/
theorem Regs.Inv.raiseIllegalCommand {r : Regs} (h : r.Inv) : (raiseIllegalCommand r).Inv := { h with }

theorem Regs.Inv.reset : Regs.reset.Inv := by
  constructor <;> decide

/-- DEC.START leaves what reset leaves, but for the encoder (R143). -/
theorem Regs.Inv.decStart {r : Regs} (h : r.Inv) : (decStartRegs r).Inv :=
  { Regs.Inv.reset with idle_pbyte := h.idle_pbyte }

theorem Regs.Inv.decSym {r : Regs} (h : r.Inv) (c : Byte) : (decSymRegs c r).Inv := by
  rcases decSymRegs_cases c r with ⟨-, hr⟩ | ⟨-, -, hr⟩ | ⟨d, -, -, ho, hr⟩ | ⟨d, he, -, -, hr⟩
  · exact hr ▸ h.emitNone
  · exact hr ▸ h.raiseDecodeError (.inl rfl) (fun hk => by cases hk)
  · exact hr ▸ h.raiseDecodeError (.inr rfl) (fun _ => h.decPos_of_overflows d ho)
  · rcases acceptDigit_cases d r with ⟨hp, ha⟩ | ⟨-, ha⟩
    · exact hr ▸ ha ▸ (h.decGroup he (h.groupBound.accept hp d) _).emitNone
    · exact hr ▸ ha ▸ (h.decGroup_zero he _).emit _

theorem Regs.Inv.decEnd {r : Regs} (h : r.Inv) : (decEndRegs r).Inv := by
  rcases decEndRegs_cases r with ⟨-, hr⟩ | ⟨he, -, hr⟩ | ⟨he, -, hr⟩
  · exact hr ▸ h.emitNone
  · exact hr ▸ (h.decGroup_zero he 0).emitNone
  · exact hr ▸ (h.decGroup_zero he 0).emit _

theorem Regs.Inv.encByte {r : Regs} (h : r.Inv) (b : Byte) : (encByteRegs b r).Inv := by
  rcases encByteRegs_cases b r with ⟨-, hr⟩ | ⟨-, hr⟩
  · exact hr ▸ h.encEmpty.emit _
  · exact hr ▸ (h.encHold b).emitNone

theorem Regs.Inv.encEnd {r : Regs} (h : r.Inv) : (encEndRegs r).Inv := by
  rcases encEndRegs_cases r with ⟨-, hr⟩ | ⟨-, hr⟩
  · exact hr ▸ h.encEmpty.emit _
  · exact hr ▸ h.encEmpty.emitNone

theorem Regs.Inv.lutFwd {r : Regs} (h : r.Inv) (n : Byte) : (lutFwdRegs n r).Inv := by
  rcases lutFwdRegs_cases n r with ⟨d, -, hr⟩ | ⟨-, hr⟩
  · exact hr ▸ h.emit _
  · exact hr ▸ h.emitInvalid

theorem Regs.Inv.lutInv {r : Regs} (h : r.Inv) (c : Byte) : (lutInvRegs c r).Inv := by
  rcases lutInvRegs_cases c r with ⟨d, -, hr⟩ | ⟨-, hr⟩
  · exact hr ▸ h.emit _
  · exact hr ▸ h.emitInvalid

/-- Every command keeps the invariants of the registers. -/
theorem Regs.Inv.command {r : Regs} (h : r.Inv) (i : Instr) : (commandRegs i r).Inv := by
  cases i with
  | nop => exact h
  | clear => exact Regs.Inv.reset
  | encStart => exact h.encEmpty.emitNone
  | encByte b => exact h.encByte b
  | encEnd => exact h.encEnd
  | decStart => exact h.decStart
  | decSym c => exact h.decSym c
  | decEnd => exact h.decEnd
  | lutFwd n => exact h.lutFwd n
  | lutInv c => exact h.lutInv c

/-- The machine's invariant is about the windows' places and each block's registers. -/
theorem State.Inv.of_bases {s t : State} (h : s.Inv) (hb : t.blocks.map Block.base = s.blocks.map Block.base)
    (hr : ∀ b ∈ t.blocks, b.regs.Inv) : t.Inv where
  aligned b hm := by
    have hm' : b.base ∈ s.blocks.map Block.base := hb ▸ List.mem_map_of_mem hm
    obtain ⟨c, hc, hcb⟩ := List.mem_map.mp hm'
    exact hcb ▸ h.aligned c hc
  distinct := hb ▸ h.distinct
  regs := hr

/-- A change of one block's registers that keeps their invariants keeps the machine's. -/
theorem State.Inv.onBlockRegs {s : State} (h : s.Inv) (k : Nat) {f : Regs → Regs}
    (hf : ∀ r : Regs, r.Inv → (f r).Inv) : (s.onBlockRegs k f).Inv := by
  refine h.of_bases ?_ fun b hb => ?_
  · rw [State.onBlockRegs_blocks]
    apply List.ext_getElem?
    intro j
    simp only [List.getElem?_map, List.getElem?_modify]
    cases s.blocks[j]? with
    | none => rfl
    | some b => by_cases hj : k = j <;> simp [hj]
  · rw [State.onBlockRegs_blocks] at hb
    obtain ⟨j, hj⟩ := List.mem_iff_getElem?.mp hb
    rw [List.getElem?_modify] at hj
    obtain ⟨c, hc, hcb⟩ := Option.map_eq_some_iff.mp hj
    have hi := h.regs c (List.mem_of_getElem? hc)
    split at hcb
    · exact hcb ▸ hf _ hi
    · exact hcb ▸ hi

theorem State.Inv.applyReset {s : State} (h : s.Inv) : s.applyReset.Inv := by
  have hb : s.applyReset.blocks = s.blocks.map (fun b => { b with regs := Regs.reset }) := rfl
  refine h.of_bases ?_ fun b hm => ?_
  · rw [hb, List.map_map]
    rfl
  · rw [hb] at hm
    obtain ⟨c, -, rfl⟩ := List.mem_map.mp hm
    exact Regs.Inv.reset

/-- The host's side of the bus is in no invariant. -/
theorem State.Inv.withHost {s : State} (h : s.Inv) (p : List BusEvent) (w : List Word) :
    State.Inv { s with pending := p, reads := w } :=
  h.of_bases rfl h.regs

/-- Every completed event keeps the invariants. -/
theorem State.Inv.busEvent {e : BusEvent} {s t : State} (h : s.Inv) (ht : busEvent e s = .next t) : t.Inv := by
  rcases busEvent_next ht with ⟨_, _, _, _, -, -, -, -, rfl⟩ | ⟨_, _, _, k, _, i, -, -, -, -, -, rfl⟩ |
    ⟨_, _, _, k, _, _, -, -, -, -, -, rfl⟩ | ⟨_, _, _, _, -, -, -, -, rfl⟩ | ⟨-, rfl⟩
  · exact h.withHost _ _
  · exact h.onBlockRegs k fun r hr => hr.command i
  · exact h.onBlockRegs k fun r hr => hr.raiseIllegalCommand
  · exact h
  · exact h.applyReset

/-- Settles O47: a step takes the next event, or, with none pending, does nothing. -/
theorem stepKeepsTheInvariants : Obligations.StepKeepsTheInvariants := by
  intro s t h ht
  cases hp : s.pending with
  | nil =>
    rw [step_nil hp] at ht
    cases ht
    exact h
  | cons e es =>
    rw [step_cons hp] at ht
    exact (h.withHost es s.reads).busEvent ht

/-- Settles O48: the one block's registers are the reset values, and its window is at 0. -/
theorem resetMeetsTheInvariants : Obligations.ResetMeetsTheInvariants where
  aligned := by simp [State.blocks, State.reset, Config.resetBase]
  distinct := List.nodup_singleton _
  regs := by simpa [State.blocks, State.reset] using Regs.Inv.reset

/-- Settles O43: CLEAR's writes are those of reset, register by register. -/
theorem resetValues : Obligations.ResetValues :=
  ⟨rfl, fun s => ⟨_, exec_eq .clear s, rfl⟩, fun _ => rfl⟩

end Sys2Proof.Machine
end

section
/-! Accesses at the machine's own window (spec 20_memory.md R51-R55): each window operation by the access contract, then
what an offset reads as and what a write to it does. -/

namespace Sys2Proof.Machine

theorem contractBreach_of_width {off bytes : Nat} (h : bytes ≠ 4) : contractBreach off bytes = some (.badWidth bytes) :=
  if_pos h

theorem contractBreach_of_unaligned {off : Nat} (h : off % 4 ≠ 0) : contractBreach off 4 = some (.misaligned off) := by
  simp [contractBreach, h]

theorem windowRead_of_breach {off bytes : Nat} {r : Refusal} (h : contractBreach off bytes = some r) (s : State) :
    windowRead bytes off s = .refused r := by
  simp [windowRead, h]

theorem windowWrite_of_breach {off bytes : Nat} {r : Refusal} (h : contractBreach off bytes = some r) (v : Word)
    (s : State) : windowWrite bytes v off s = .refused r := by
  simp [windowWrite, h]

theorem windowRead_aligned {off : Nat} (h : off % 4 = 0) (s : State) :
    windowRead 4 off s = .next { s with reads := s.reads ++ [readOffset off s.regs] } := by
  simp [windowRead, contractBreach_eq_none.mpr ⟨rfl, h⟩]

/-- R52: CMD stands at offset 0 and nowhere else. -/
theorem regAt_eq_cmd {off : Nat} : regAt off = some .cmd ↔ off = 0 := by
  unfold regAt
  split <;> simp_all

theorem windowWrite_aligned {off : Nat} (h : off % 4 = 0) (v : Word) (s : State) :
    windowWrite 4 v off s = if off = 0 then dispatch v s else .next s := by
  rcases windowWrite_cases 4 v off s with ⟨r, hc, -⟩ | ⟨-, hreg, hw⟩ | ⟨-, hreg, hw⟩
  · simp [contractBreach_eq_none.mpr ⟨rfl, h⟩] at hc
  · rw [hw, if_pos (regAt_eq_cmd.mp hreg)]
  · rw [hw, if_neg (mt regAt_eq_cmd.mpr hreg)]

/-- R52-R54: the value of every offset, CMD and the reserved ones reading as 0. -/
theorem readOffset_eq (off : Nat) (r : Regs) :
    readOffset off r =
      if off = 0x04 then r.result
      else if off = 0x08 then statusWord r
      else if off = 0x0C then r.errPos
      else if off = 0x10 then r.decCnt
      else if off = 0x14 then 0#16 ++ r.decAcc
      else if off = 0x18 then 0x0B450001
      else 0x00000000 := by
  have hacc : r.decAcc.setWidth 32 = 0#16 ++ r.decAcc := BitVec.setWidth_eq_append (by decide)
  unfold readOffset regAt
  split
  · next n hn => split at hn <;> cases hn <;> simp [readReg, idWord, hacc]
  · next hn => split at hn <;> simp_all

/-- Settles O38: an access at the machine's own window is a window operation there, and an aligned one keeps the contract. -/
theorem registerMap : Obligations.RegisterMap := by
  intro s es off hlt h4
  refine ⟨fun hp => ?_, fun v hp => ?_⟩
  · rw [step_cons hp, ← readOffset_eq]
    exact (busAccess_own hlt (windowRead 4) { s with pending := es }).trans (windowRead_aligned h4 _)
  · rw [step_cons hp]
    exact (busAccess_own hlt (windowWrite 4 v) { s with pending := es }).trans (windowWrite_aligned h4 v _)

/-- At the machine's own window a breach of the contract refuses a read and a write alike. -/
theorem step_own_of_breach {s : State} {es : List BusEvent} {off bytes : Nat} {v : Word} {r : Refusal} (h : off < 0x40)
    (hp : s.pending = .read (s.base + off) bytes :: es ∨ s.pending = .write (s.base + off) bytes v :: es)
    (hc : contractBreach off bytes = some r) : step s = .refused r := by
  rcases hp with hp | hp <;> rw [step_cons hp]
  · exact (busAccess_own h (windowRead bytes) { s with pending := es }).trans (windowRead_of_breach hc _)
  · exact (busAccess_own h (windowWrite bytes v) { s with pending := es }).trans (windowWrite_of_breach hc v _)

/-- Settles O41: the width is checked first, then the alignment. -/
theorem accessesOutsideTheContractAreRefused : Obligations.AccessesOutsideTheContractAreRefused := by
  intro s es off bytes v hlt hp
  refine ⟨fun hw => step_own_of_breach hlt hp (contractBreach_of_width hw), ?_⟩
  rintro rfl h4
  exact step_own_of_breach hlt hp (contractBreach_of_unaligned h4)

end Sys2Proof.Machine
end

section
/-! Where an access goes (spec 20_memory.md R50, R52, R63): to no block, or to the one whose window holds its address; and
that an access inside the contract always completes. -/

namespace Sys2Proof.Machine

theorem routeIn_blocks_eq_none {s : State} {addr : Nat} : routeIn addr s.blocks = none ↔ ¬ s.mapped addr := by
  simp [routeIn_eq_none, State.mapped]

theorem busAccess_unmapped {s : State} {addr : Nat} (h : ¬ s.mapped addr)
    (f : Nat → State → Host.Outcome State Fault Refusal) : busAccess addr f s = .refused (.outsideWindow addr) := by
  simp [busAccess, routeIn_blocks_eq_none.mpr h]

/-- Settles O42: an access with no route is refused, whatever it is. -/
theorem accessesOutsideEveryWindowAreRefused : Obligations.AccessesOutsideEveryWindowAreRefused := by
  intro s es addr bytes v hm hp
  have hm' : ¬ State.mapped { s with pending := es } addr := hm
  rcases hp with hp | hp <;> rw [step_cons hp]
  · exact busAccess_unmapped hm' (windowRead bytes)
  · exact busAccess_unmapped hm' (windowWrite bytes v)

/-- Windows that are aligned and distinct do not overlap, so a block whose window holds the address is the one routed to. -/
theorem State.Inv.routeIn_eq {s : State} (h : s.Inv) {k addr : Nat} {b : Block} (hb : s.blocks[k]? = some b)
    (hlo : b.base ≤ addr) (hhi : addr < b.base + 0x40) : routeIn addr s.blocks = some (k, addr - b.base) := by
  have hm : b ∈ s.blocks := List.mem_of_getElem? hb
  cases hr : routeIn addr s.blocks with
  | none => exact absurd ⟨hlo, hhi⟩ (routeIn_eq_none.mp hr b hm)
  | some p =>
    obtain ⟨j, off⟩ := p
    obtain ⟨c, hc, hclo, hchi, rfl⟩ := routeIn_some hr
    have hbase : c.base = b.base := by
      have hba := h.aligned b hm
      have hca := h.aligned c (List.mem_of_getElem? hc)
      omega
    obtain ⟨hj, -⟩ := List.getElem?_eq_some_iff.mp hc
    have hjk : j = k := (List.getElem?_inj (by simpa using hj) h.distinct).mp (by simp [hb, hc, hbase])
    rw [hjk, hbase]

theorem busAccess_completes {s : State} {addr k off : Nat} {f : Nat → State → Host.Outcome State Fault Refusal}
    (hr : routeIn addr s.blocks = some (k, off)) (hf : ∀ u, ∃ t, f off u = .next t) :
    ∃ t, busAccess addr f s = .next t := by
  obtain ⟨t, ht⟩ := hf (s.focus k)
  exact ⟨t.focus k, by simp [busAccess, hr, onBlock, ht]⟩

theorem dispatch_completes (w : Word) (s : State) : ∃ t, dispatch w s = .next t := by
  rcases dispatch_cases w s with ⟨i, -, h⟩ | ⟨e, -, h⟩ <;> exact ⟨_, h⟩

theorem windowWrite_completes {off : Nat} (h : off % 4 = 0) (v : Word) (s : State) :
    ∃ t, windowWrite 4 v off s = .next t := by
  rw [windowWrite_aligned h]
  split
  · exact dispatch_completes v s
  · exact ⟨s, rfl⟩

/-- Under the placement invariant, an address in some window that is a multiple of 4 is routed to an aligned offset. -/
theorem State.Inv.route_aligned {s : State} (h : s.Inv) {addr : Nat} (h4 : addr % 4 = 0) (hm : s.mapped addr) :
    ∃ k off, routeIn addr s.blocks = some (k, off) ∧ off % 4 = 0 := by
  obtain ⟨b, hb, hlo, hhi⟩ := hm
  obtain ⟨k, hk⟩ := List.mem_iff_getElem?.mp hb
  have hba := h.aligned b hb
  exact ⟨k, addr - b.base, h.routeIn_eq hk hlo hhi, by omega⟩

/-- What the contract asks of an event depends on where the windows lie, not on the host's side of the bus. -/
@[simp] theorem State.onContract_withHost (s : State) (p : List BusEvent) (w : List Word) (e : BusEvent) :
    State.onContract { s with pending := p, reads := w } e ↔ s.onContract e := by
  cases e <;> rfl

/-- An event inside the contract completes. -/
theorem State.Inv.busEvent_completes {s : State} (h : s.Inv) {e : BusEvent} (he : s.onContract e) :
    ∃ t, Machine.busEvent e s = .next t := by
  cases e with
  | read addr bytes =>
    obtain ⟨rfl, h4, hm⟩ := he
    obtain ⟨k, off, hr, ho⟩ := h.route_aligned h4 hm
    exact busAccess_completes hr fun u => ⟨_, windowRead_aligned ho u⟩
  | write addr bytes v =>
    obtain ⟨rfl, h4, hm⟩ := he
    obtain ⟨k, off, hr, ho⟩ := h.route_aligned h4 hm
    exact busAccess_completes hr (windowWrite_completes ho v)
  | reset => exact ⟨_, rfl⟩

/-- Settles O50: there is no fault to end in, the idle step completes, and so does an event inside the contract. -/
theorem onlyContractBreachesStopAStep : Obligations.OnlyContractBreachesStopAStep := by
  refine fun s h => ⟨nofun, fun r hr => ?_⟩
  cases hp : s.pending with
  | nil =>
    rw [step_nil hp] at hr
    cases hr
  | cons e es =>
    refine ⟨e, es, rfl, fun he => ?_⟩
    obtain ⟨t, ht⟩ := (h.withHost es s.reads).busEvent_completes ((State.onContract_withHost s es s.reads e).mpr he)
    rw [step_cons hp, ht] at hr
    cases hr

end Sys2Proof.Machine
end

section
/-! What an access does at the block it is routed to and leaves as it was everywhere else (spec 20_memory.md R57, R63;
60_exceptions.md R194). -/

namespace Sys2Proof.Machine

/-- The read's case of `busEvent_next`. -/
theorem busEvent_read_next {s t : State} {addr bytes : Nat} (h : busEvent (.read addr bytes) s = .next t) :
    ∃ k off b, bytes = 4 ∧ routeIn addr s.blocks = some (k, off) ∧ s.blocks[k]? = some b ∧ off % 4 = 0 ∧
      t = { s with reads := s.reads ++ [readOffset off b.regs] } := by
  rcases busEvent_next h with ⟨_, off, k, b, he, hread⟩ | ⟨_, _, _, _, _, _, he, -⟩ |
    ⟨_, _, _, _, _, _, he, -⟩ | ⟨_, _, _, _, he, -⟩ | ⟨he, -⟩ <;> cases he
  exact ⟨k, off, b, rfl, hread⟩

/-- An aligned read returns the routed block's value. -/
theorem busEvent_read {s : State} {addr k off : Nat} {b : Block} (hr : routeIn addr s.blocks = some (k, off))
    (hb : s.blocks[k]? = some b) (h4 : off % 4 = 0) :
    busEvent (.read addr 4) s = .next { s with reads := s.reads ++ [readOffset off b.regs] } := by
  obtain ⟨t, ht⟩ : ∃ t, busEvent (.read addr 4) s = .next t :=
    busAccess_completes hr fun u => ⟨_, windowRead_aligned h4 u⟩
  obtain ⟨_, _, _, -, hr', hb', -, rfl⟩ := busEvent_read_next ht
  cases hr.symm.trans hr'
  cases hb.symm.trans hb'
  exact ht

/-- A legal word written to the routed block's CMD runs its command there. -/
theorem busEvent_write_command {s : State} {addr k : Nat} {w : Word} {i : Instr}
    (hr : routeIn addr s.blocks = some (k, 0)) (hd : decode w = .ok i) :
    busEvent (.write addr 4 w) s = .next (s.onBlockRegs k (commandRegs i)) := by
  obtain ⟨b, hb, -⟩ := routeIn_some hr
  have hw : windowWrite 4 w 0 (s.focus k) = .next ((s.focus k).onRegs (commandRegs i)) := by
    simp [windowWrite_aligned, dispatch, hd, exec_eq]
  simp [busEvent, busAccess, hr, onBlock, hw, State.focus_onRegs_focus s _ k b hb]

theorem step_read {s : State} {es : List BusEvent} {addr k off : Nat} {b : Block}
    (hp : s.pending = .read addr 4 :: es) (hr : routeIn addr s.blocks = some (k, off)) (hb : s.blocks[k]? = some b)
    (h4 : off % 4 = 0) : step s = .next { s with pending := es, reads := s.reads ++ [readOffset off b.regs] } :=
  (step_cons hp).trans (busEvent_read (s := { s with pending := es }) hr hb h4)

theorem step_write_command {s : State} {es : List BusEvent} {addr k : Nat} {w : Word} {i : Instr}
    (hp : s.pending = .write addr 4 w :: es) (hr : routeIn addr s.blocks = some (k, 0)) (hd : decode w = .ok i) :
    step s = .next (State.onBlockRegs k (commandRegs i) { s with pending := es }) :=
  (step_cons hp).trans (busEvent_write_command (s := { s with pending := es }) hr hd)

/-- Settles O40: the first read changes no block, so the second is routed to the same offset of the same registers. -/
theorem readsHaveNoSideEffect : Obligations.ReadsHaveNoSideEffect := by
  intro s t es addr bytes hp ht
  rw [step_cons hp] at ht
  obtain ⟨k, off, b, rfl, hr, hb, h4, rfl⟩ := busEvent_read_next ht
  exact ⟨readOffset off b.regs, rfl, step_read rfl hr hb h4⟩

theorem State.onBlockRegs_id_blocks (s : State) (k : Nat) : (s.onBlockRegs k id).blocks = s.blocks :=
  (State.onBlockRegs_blocks s id k).trans (List.modify_id k _)

/-- A completed access changes at most the registers of the block it is routed to. -/
theorem busEvent_access_blocks {s t : State} {e : BusEvent} {addr bytes : Nat} {v : Word}
    (he : e = .read addr bytes ∨ e = .write addr bytes v) (h : busEvent e s = .next t) :
    ∃ k off f, routeIn addr s.blocks = some (k, off) ∧ t.blocks = (s.onBlockRegs k f).blocks := by
  rcases busEvent_next h with ⟨_, off, k, _, rfl, hr, -, -, rfl⟩ | ⟨_, _, off, k, _, i, rfl, hr, -, -, -, rfl⟩ |
    ⟨_, _, off, k, _, _, rfl, hr, -, -, -, rfl⟩ | ⟨_, _, off, k, rfl, hr, -, -, rfl⟩ | ⟨rfl, -⟩ <;>
    rcases he with he | he <;> cases he
  · exact ⟨k, off, id, hr, (State.onBlockRegs_id_blocks s k).symm⟩
  · exact ⟨k, off, commandRegs i, hr, rfl⟩
  · exact ⟨k, off, raiseIllegalCommand, hr, rfl⟩
  · exact ⟨k, off, id, hr, (State.onBlockRegs_id_blocks t k).symm⟩

theorem State.onBlockRegs_bases (s : State) (k : Nat) (f : Regs → Regs) :
    (s.onBlockRegs k f).blocks.map Block.base = s.blocks.map Block.base := by
  rw [State.onBlockRegs_blocks]
  apply List.ext_getElem?
  intro j
  simp only [List.getElem?_map, List.getElem?_modify]
  split <;> cases s.blocks[j]? <;> rfl

theorem State.onBlockRegs_other (s : State) {k j : Nat} (h : k ≠ j) (f : Regs → Regs) :
    (s.onBlockRegs k f).blocks[j]? = s.blocks[j]? := by
  simp [State.onBlockRegs_blocks, h]

/-- Settles O45: only the block routed to changes, and its window holds the address. -/
theorem blocksShareNothing : Obligations.BlocksShareNothing := by
  intro s t e es addr bytes v hp he ht
  rw [step_cons hp] at ht
  obtain ⟨k, off, f, hr, hblocks⟩ := busEvent_access_blocks he ht
  obtain ⟨c, hc, hlo, hhi, -⟩ := routeIn_some hr
  rw [hblocks]
  refine ⟨State.onBlockRegs_bases _ k f, fun j b hb hout => ?_⟩
  have hkj : k ≠ j := by
    rintro rfl
    cases hc.symm.trans hb
    exact hout ⟨hlo, hhi⟩
  exact (State.onBlockRegs_other _ hkj f).trans hb

/-- A change of a peer's registers, written as the peer's entry after it. -/
theorem State.onBlockRegs_peer (s : State) {k : Nat} {p : Block} (hk : s.peers[k]? = some p) (f : Regs → Regs) :
    s.onBlockRegs (k + 1) f = { s with peers := s.peers.set k ⟨p.base, f p.regs⟩ } := by
  simp [State.onBlockRegs, List.modify_eq_set_getElem?, hk]

/-- Settles O46: the peer's CMD is its base, and only the peer's window holds that address. -/
theorem peersRunTheSameCommands : Obligations.PeersRunTheSameCommands := by
  intro s k p w i es h hk hp hd
  have hr : routeIn p.base s.blocks = some (k + 1, 0) := by
    rw [h.routeIn_eq (k := k + 1) (b := p) hk le_rfl (by omega), Nat.sub_self]
  refine ⟨_, _, exec_eq i _, ?_, rfl⟩
  rw [step_write_command hp hr hd]
  exact congrArg Host.Outcome.next (State.onBlockRegs_peer { s with pending := es } hk _)

end Sys2Proof.Machine
end

section
/-! Decoding and encoding are inverse (spec 30_encoding.md R70, R74, R77): a row of the opcode map selects exactly the
encodings of its command, so a word decodes to a command exactly if it is that command's encoding. -/

namespace Sys2Proof

open Sys2Proof.Machine

/-- A word from its upper three bytes and its operand. -/
theorem high_append_opndField (w : Word) : w.extractLsb' 8 24 ++ opndField w = w :=
  BitVec.extractLsb'_append_extractLsb' (w := 24) (len := 8)

/-- The mask of a row without an operand compares the whole word. -/
theorem and_fullMask (w : Word) : w &&& 0xFFFFFFFF = w := BitVec.and_allOnes

/-- The mask of a row with an operand leaves the upper three bytes. -/
theorem and_operandMask (w : Word) : w &&& 0xFFFFFF00 = w.extractLsb' 8 24 ++ 0#8 := by
  calc w &&& 0xFFFFFF00
      = (w.extractLsb' 8 24 ++ opndField w) &&& (BitVec.allOnes 24 ++ 0#8) := by rw [high_append_opndField]; rfl
    _ = w.extractLsb' 8 24 ++ 0#8 := by rw [BitVec.and_append, BitVec.and_allOnes, BitVec.and_zero]

theorem and_operandMask_eq_iff (w : Word) (h : BitVec 24) : w &&& 0xFFFFFF00 = h ++ 0#8 ↔ w = h ++ opndField w := by
  calc w &&& 0xFFFFFF00 = h ++ 0#8
      ↔ w.extractLsb' 8 24 = h := by rw [and_operandMask, BitVec.append_left_inj]
    _ ↔ w.extractLsb' 8 24 ++ opndField w = h ++ opndField w := (BitVec.append_left_inj _).symm
    _ ↔ w = h ++ opndField w := by rw [high_append_opndField]

/-- A command's encoding by its fields: the operand stands in it exactly if the mnemonic takes one (R72). -/
theorem encode_ofMnemonic (m : Mnemonic) (b : Byte) :
    encode (Instr.ofMnemonic m b) =
      (0#16 ++ (Instr.ofMnemonic m 0).opcode) ++ (if m.takesOperand then b else 0#8) := by
  cases m <;> rfl

/-- The match and mask columns of R74: the encoding with operand 0, and the operand's bits left out if there is one. -/
theorem opcodeMap_columns : ∀ r ∈ opcodeMap, r.mtch = encode (Instr.ofMnemonic r.mnemonic 0) ∧
    r.mask = if r.mnemonic.takesOperand then 0xFFFFFF00 else 0xFFFFFFFF := by decide

/-- A row selects the encodings of its command, and no other word. -/
theorem Row.selects_iff {r : Row} (hr : r ∈ opcodeMap) (w : Word) :
    r.selects w = true ↔ w = encode (Instr.ofMnemonic r.mnemonic (opndField w)) := by
  obtain ⟨hmtch, hmask⟩ := opcodeMap_columns r hr
  rw [Row.selects, beq_iff_eq, hmtch, hmask, encode_ofMnemonic, encode_ofMnemonic]
  cases r.mnemonic.takesOperand with
  | false => exact Eq.congr_left (and_fullMask w)
  | true => exact and_operandMask_eq_iff w _

/-- The fields of an encoding, for every command at once. -/
theorem encodesLegally (i : Instr) : Laws.EncodesLegally.Statement i := by
  cases i with
  | nop => exact Laws.EncodesLegally.nop
  | clear => exact Laws.EncodesLegally.clear
  | encStart => exact Laws.EncodesLegally.encStart
  | encByte b => exact Laws.EncodesLegally.encByte b
  | encEnd => exact Laws.EncodesLegally.encEnd
  | decStart => exact Laws.EncodesLegally.decStart
  | decSym c => exact Laws.EncodesLegally.decSym c
  | decEnd => exact Laws.EncodesLegally.decEnd
  | lutFwd n => exact Laws.EncodesLegally.lutFwd n
  | lutInv c => exact Laws.EncodesLegally.lutInv c

@[simp] theorem opField_encode (i : Instr) : opField (encode i) = i.opcode := (encodesLegally i).2.1

@[simp] theorem opndField_encode (i : Instr) : opndField (encode i) = i.operand := (encodesLegally i).2.2.1

/-- A command is its row's command with its own operand. -/
theorem exists_row (i : Instr) : ∃ r ∈ opcodeMap, i = Instr.ofMnemonic r.mnemonic i.operand := by
  cases i <;> simp [opcodeMap, Instr.ofMnemonic, Instr.operand]

/-- The opcode does not depend on the operand. -/
theorem opcode_ofMnemonic (m : Mnemonic) (b : Byte) :
    (Instr.ofMnemonic m b).opcode = (Instr.ofMnemonic m 0).opcode := by
  cases m <;> rfl

/-- No two rows have one opcode. -/
theorem row_eq_of_opcode_eq : ∀ r₁ ∈ opcodeMap, ∀ r₂ ∈ opcodeMap,
    (Instr.ofMnemonic r₁.mnemonic 0).opcode = (Instr.ofMnemonic r₂.mnemonic 0).opcode → r₁ = r₂ := by decide

/-- A selected row has the word's opcode. -/
theorem Row.opField_of_selects {r : Row} {w : Word} (hr : r ∈ opcodeMap) (hs : r.selects w = true) :
    opField w = (Instr.ofMnemonic r.mnemonic 0).opcode := by
  rw [(Row.selects_iff hr w).mp hs, opField_encode, opcode_ofMnemonic]

/-- The rows do not overlap. -/
theorem Row.eq_of_selects {r₁ r₂ : Row} {w : Word} (h₁ : r₁ ∈ opcodeMap) (h₂ : r₂ ∈ opcodeMap)
    (hs₁ : r₁.selects w = true) (hs₂ : r₂.selects w = true) : r₁ = r₂ :=
  row_eq_of_opcode_eq r₁ h₁ r₂ h₂ ((Row.opField_of_selects h₁ hs₁).symm.trans (Row.opField_of_selects h₂ hs₂))

theorem decode_of_selects {r : Row} {w : Word} (hr : r ∈ opcodeMap) (hs : r.selects w = true) :
    decode w = .ok (Instr.ofMnemonic r.mnemonic (opndField w)) := by
  unfold decode
  split
  · next r' hf => rw [Row.eq_of_selects hr (List.mem_of_find?_eq_some hf) hs (by simpa using List.find?_some hf)]
  · next hf => exact absurd hs (List.find?_eq_none.mp hf r hr)

theorem decode_of_not_selects {w : Word} (h : ∀ r ∈ opcodeMap, ¬ r.selects w = true) :
    decode w = .error (illegalReason w) := by
  simp [decode, List.find?_eq_none.mpr h]

/-- What the decoder answers: a selected row's command, or, with no row selected, a rejection. -/
theorem decode_cases (w : Word) :
    (∃ r ∈ opcodeMap, r.selects w = true ∧ decode w = .ok (Instr.ofMnemonic r.mnemonic (opndField w))) ∨
    ((∀ r ∈ opcodeMap, ¬ r.selects w = true) ∧ decode w = .error (illegalReason w)) := by
  by_cases h : ∃ r ∈ opcodeMap, r.selects w = true
  · obtain ⟨r, hr, hs⟩ := h
    exact .inl ⟨r, hr, hs, decode_of_selects hr hs⟩
  · have hn : ∀ r ∈ opcodeMap, ¬ r.selects w = true := fun r hr hs => h ⟨r, hr, hs⟩
    exact .inr ⟨hn, decode_of_not_selects hn⟩

/-- Decoding undoes encoding: a command's encoding is selected by its row. -/
@[simp] theorem decode_encode (i : Instr) : decode (encode i) = .ok i := by
  obtain ⟨r, hr, hi⟩ := exists_row i
  have hi' : Instr.ofMnemonic r.mnemonic (opndField (encode i)) = i := by rw [opndField_encode, ← hi]
  have hs : r.selects (encode i) = true := (Row.selects_iff hr _).mpr (by rw [hi'])
  rw [decode_of_selects hr hs, hi']

/-- A word that decodes to a command is that command's encoding. -/
theorem decode_eq_ok_iff {w : Word} {i : Instr} : decode w = .ok i ↔ w = encode i := by
  constructor
  · intro h
    rcases decode_cases w with ⟨r, hr, hs, hd⟩ | ⟨-, hd⟩
    · rw [Except.ok.inj (h.symm.trans hd)]
      exact (Row.selects_iff hr w).mp hs
    · cases h.symm.trans hd
  · rintro rfl
    exact decode_encode i

/-- Settles O1. -/
theorem decodeIsTheInverseOfEncode : Obligations.DecodeIsTheInverseOfEncode :=
  fun _ _ => decode_eq_ok_iff

/-- Settles O2: each clause is the decoding of one row, whose operand is the word's low byte. -/
theorem opcodeMapRowsDecode : Obligations.OpcodeMapRowsDecode := by
  refine ⟨fun w => ?_, fun w r₁ r₂ => Row.eq_of_selects⟩
  have row {r : Row} (hr : r ∈ opcodeMap) (h : w &&& r.mask = r.mtch) :
      decode w = .ok (Instr.ofMnemonic r.mnemonic (BitVec.ofNat 8 w.toNat)) :=
    decode_of_selects hr (beq_iff_eq.mpr h)
  refine ⟨row (r := ⟨.nop, _, _⟩) (by decide), row (r := ⟨.clear, _, _⟩) (by decide),
    row (r := ⟨.encStart, _, _⟩) (by decide), row (r := ⟨.encByte, _, _⟩) (by decide),
    row (r := ⟨.encEnd, _, _⟩) (by decide), row (r := ⟨.decStart, _, _⟩) (by decide),
    row (r := ⟨.decSym, _, _⟩) (by decide), row (r := ⟨.decEnd, _, _⟩) (by decide),
    row (r := ⟨.lutFwd, _, _⟩) (by decide), row (r := ⟨.lutInv, _, _⟩) (by decide), ?_⟩
  intro h0 h1 h2 h3 h4 h5 h6 h7 h8 h9
  have hn : ∀ r ∈ opcodeMap, w &&& r.mask ≠ r.mtch := by
    simp only [opcodeMap, List.forall_mem_cons]
    exact ⟨h0, h1, h2, h3, h4, h5, h6, h7, h8, h9, nofun⟩
  exact ⟨_, decode_of_not_selects fun r hr => mt beq_iff_eq.mp (hn r hr)⟩

/-- Settles O4: the legal words are encodings, and the others are rejected under the condition each meets. -/
theorem sampleWordsDecode : Obligations.SampleWordsDecode :=
  ⟨decode_encode .nop, decode_encode .clear, decode_encode (.encByte 0x41), decode_encode (.decSym 0x3A),
    decode_encode (.lutFwd 10), decode_encode (.lutInv 0x42), rfl, rfl, rfl⟩

end Sys2Proof
end

section
/-! The illegal words (spec 30_encoding.md R75): the words the decoder rejects are those that fail one of the three field
checks, and writing one to CMD only sets BADCMD (60_exceptions.md R186). -/

namespace Sys2Proof

open Sys2Proof.Machine

theorem rsvField_toNat (w : Word) : (rsvField w).toNat = w.toNat / 65536 := by
  have := w.isLt
  rw [rsvField, BitVec.extractLsb'_toNat, Nat.shiftRight_eq_div_pow]
  omega

theorem opField_toNat (w : Word) : (opField w).toNat = w.toNat / 256 % 256 := by
  rw [opField, BitVec.extractLsb'_toNat, Nat.shiftRight_eq_div_pow]

theorem opndField_toNat (w : Word) : (opndField w).toNat = w.toNat % 256 := by
  rw [opndField, BitVec.extractLsb'_toNat, Nat.shiftRight_zero]

/-- A word is its three fields. -/
theorem fields_append (w : Word) : rsvField w ++ opField w ++ opndField w = w := by
  apply BitVec.eq_of_toNat_eq
  rw [append_toNat, append_toNat, rsvField_toNat, opField_toNat, opndField_toNat]
  omega

/-- Each of the ten opcodes is that of a row. -/
theorem exists_row_of_opcode : ∀ op ∈ operandlessOpcodes ++ operandOpcodes,
    ∃ r ∈ opcodeMap, (Instr.ofMnemonic r.mnemonic 0).opcode = op := by decide

theorem takesOperand_of_opcode (m : Mnemonic) :
    m.takesOperand = !operandlessOpcodes.contains (Instr.ofMnemonic m 0).opcode := by
  cases m <;> rfl

/-- The legal words are the encodings. -/
theorem legalWord_iff (w : Word) : legalWord w = true ↔ ∃ i, w = encode i := by
  constructor
  · intro h
    simp only [legalWord, Bool.and_eq_true, rsvZero, opAssigned, reservedOpndZero, Bool.or_eq_true, beq_iff_eq,
      List.contains_iff_mem, ← List.mem_append] at h
    obtain ⟨⟨hrsv, hop⟩, hopnd⟩ := h
    obtain ⟨r, -, hr⟩ := exists_row_of_opcode _ hop
    refine ⟨Instr.ofMnemonic r.mnemonic (opndField w), ?_⟩
    rw [encode_ofMnemonic, takesOperand_of_opcode, hr]
    conv_lhs => rw [← fields_append w, hrsv]
    congr 1
    rcases hopnd with ho | ho
    · rw [if_pos ho]
    · rw [ho]
      split <;> rfl
  · rintro ⟨i, rfl⟩
    exact (encodesLegally i).2.2.2

/-- The decoder rejects the words that are not legal. -/
theorem decode_error_iff (w : Word) : (∃ e, decode w = .error e) ↔ legalWord w = false := by
  rw [← Bool.not_eq_true, legalWord_iff]
  cases hd : decode w <;> simp [← decode_eq_ok_iff, hd]

theorem opAssigned_eq_false_iff (w : Word) : opAssigned w = false ↔
    (0x02 ≤ w.toNat / 256 % 256 ∧ w.toNat / 256 % 256 ≤ 0x0F) ∨ (0x13 ≤ w.toNat / 256 % 256 ∧ w.toNat / 256 % 256 ≤ 0x1F) ∨
    (0x23 ≤ w.toNat / 256 % 256 ∧ w.toNat / 256 % 256 ≤ 0x2F) ∨
    (0x32 ≤ w.toNat / 256 % 256 ∧ w.toNat / 256 % 256 ≤ 0xFF) := by
  rw [← opField_toNat, opAssigned]
  simp [operandlessOpcodes, operandOpcodes, BitVec.toNat_eq]
  omega

theorem reservedOpndZero_eq_false_iff (w : Word) : reservedOpndZero w = false ↔
    (w.toNat / 256 % 256 = 0x00 ∨ w.toNat / 256 % 256 = 0x01 ∨ w.toNat / 256 % 256 = 0x10 ∨ w.toNat / 256 % 256 = 0x12 ∨
      w.toNat / 256 % 256 = 0x20 ∨ w.toNat / 256 % 256 = 0x22) ∧ w.toNat % 256 ≠ 0 := by
  rw [← opField_toNat, ← opndField_toNat, reservedOpndZero]
  simp [operandlessOpcodes, BitVec.toNat_eq]
  omega

theorem rsvZero_eq_false_iff (w : Word) : rsvZero w = false ↔ w.toNat / 65536 ≠ 0 := by
  rw [← rsvField_toNat, rsvZero]
  simp [BitVec.toNat_eq]

/-- A write to the machine's own CMD dispatches the word. -/
theorem step_own_write {s : State} {es : List BusEvent} {w : Word} (hp : s.pending = .write s.base 4 w :: es) :
    step s = dispatch w { s with pending := es } :=
  ((registerMap s es 0 (by decide) rfl).2 w hp).trans (if_pos rfl)

/-- Settles O3: each of R75's conditions is the failure of one field check. -/
theorem illegalWordsAreThoseOfR75 : Obligations.IllegalWordsAreThoseOfR75 := by
  intro w
  refine ⟨?_, fun s es hp ⟨e, he⟩ => ?_⟩
  · rw [decode_error_iff, legalWord, Bool.and_eq_false_iff, Bool.and_eq_false_iff, rsvZero_eq_false_iff,
      opAssigned_eq_false_iff, reservedOpndZero_eq_false_iff, or_assoc]
  · rw [step_own_write hp]
    simp [dispatch, he, State.onRegs, raiseIllegalCommand]

end Sys2Proof
end

section
/-! Assembled commands decode to themselves (spec 30_encoding.md R78, R73). -/

namespace Sys2Proof

open Sys2Proof.Machine

/-- An operand of a command that takes one, if it is at most 255, is the operand of the command's word. -/
theorem assemble_of_operand {m : Mnemonic} (hm : m.takesOperand = true) {o : AsmOperand} (ho : o.value ≤ 255) :
    ∃ (w : Word) (b : Byte), assemble ⟨m, some o⟩ = some w ∧ decode w = .ok (Instr.ofMnemonic m b) ∧ b.toNat = o.value := by
  have hwf : AsmCommand.wf ⟨m, some o⟩ = true := by
    simp [AsmCommand.wf, AsmCommand.operandFits, AsmCommand.operandInRange, hm, ho]
  exact ⟨_, BitVec.ofNat 8 o.value, if_pos hwf, decode_encode _, by simp; omega⟩

/-- An operand above 255 is ill formed. -/
theorem assemble_of_large {m : Mnemonic} {o : AsmOperand} (ho : 255 < o.value) : assemble ⟨m, some o⟩ = none := by
  have hwf : ¬ AsmCommand.wf ⟨m, some o⟩ = true := by
    simp [AsmCommand.wf, AsmCommand.operandInRange, ho]
  exact if_neg hwf

theorem assemble_of_no_operand {m : Mnemonic} (hm : m.takesOperand = false) :
    assemble ⟨m, none⟩ = some (encode (Instr.ofMnemonic m 0)) := by
  have hwf : AsmCommand.wf ⟨m, none⟩ = true := by
    simp [AsmCommand.wf, AsmCommand.operandFits, AsmCommand.operandInRange, hm]
  exact if_pos hwf

/-- A command without an operand is the same command whatever byte stands for one. -/
theorem ofMnemonic_eq_of_no_operand {m : Mnemonic} (hm : m.takesOperand = false) (b c : Byte) :
    Instr.ofMnemonic m b = Instr.ofMnemonic m c := by
  cases m with
  | nop | clear | encStart | encEnd | decStart | decEnd => rfl
  | encByte | decSym | lutFwd | lutInv => cases hm

/-- Settles O5: the word of a well-formed command is an encoding, and the operand decides what is well formed. -/
theorem assembledCommandsDecode : Obligations.AssembledCommandsDecode := by
  refine ⟨fun m hm => ⟨_, assemble_of_no_operand hm, fun b => ?_⟩, fun m hm => ⟨fun n hn => ?_, fun c hc => ?_⟩,
    fun m n hn => ?_, fun m c hm _ => ⟨fun hc => ?_, fun hc => ?_⟩⟩
  · rw [decode_encode, ofMnemonic_eq_of_no_operand hm]
  · exact assemble_of_operand hm (o := .number n) hn
  · exact assemble_of_operand hm (o := .quoted c) (hc.le.trans (by decide))
  · exact assemble_of_large (o := .number n) hn
  · exact assemble_of_operand hm (o := .quoted c) hc
  · exact assemble_of_large (o := .quoted c) hc

end Sys2Proof
end

section
/-! Runs of a host's program at the machine's own window: what each line of the assembler does to the registers and returns
to the host (spec 30_encoding.md R78), and how lines compose. -/

namespace Sys2Proof.Machine

/-- A run of m steps and then n is a run of m + n. -/
theorem run_add (M : Host.Core) {m n : Nat} {s t : M.State} (h : M.run m s = .next t) :
    M.run (m + n) s = M.run n t := by
  induction m generalizing s with
  | zero =>
    cases h
    rw [Nat.zero_add]
  | succ k ih =>
    rw [Nat.succ_add]
    simp only [Host.Core.run] at h ⊢
    cases hs : M.step s with
    | next u =>
      simp only [hs] at h ⊢
      exact ih h
    | fault r => simp [hs] at h
    | refused r => simp [hs] at h

/-- The program `prog`, at the head of what the host is about to do, completes in as many steps as it has lines, takes the
machine's own registers from r to r', and returns the values ws. -/
def Runs (base : Nat) (prog : List BusEvent) (r r' : Regs) (ws : List Word) : Prop :=
  ∀ (s : State) (es : List BusEvent),
    Host.Core.run core prog.length { s with base := base, regs := r, pending := prog ++ es } =
      .next { s with base := base, regs := r', pending := es, reads := s.reads ++ ws }

/-- A program that stands in a state's list runs there. -/
theorem Runs.run {s : State} {prog es : List BusEvent} {r' : Regs} {ws : List Word} (h : Runs s.base prog s.regs r' ws)
    (hp : s.pending = prog ++ es) :
    Host.Core.run core prog.length s = .next { s with regs := r', pending := es, reads := s.reads ++ ws } := by
  have hs := h s es
  rwa [← hp] at hs

variable {base : Nat} {prog prog' : List BusEvent} {r r' r'' : Regs} {ws ws' : List Word}

theorem Runs.nil (base : Nat) (r : Regs) : Runs base [] r r [] := fun s es => by
  simp [Host.Core.run]

theorem Runs.append (h : Runs base prog r r' ws) (h' : Runs base prog' r' r'' ws') :
    Runs base (prog ++ prog') r r'' (ws ++ ws') := fun s es => by
  have h1 := h s (prog' ++ es)
  have h2 := h' { s with reads := s.reads ++ ws } es
  rw [List.length_append, List.append_assoc, run_add core h1, ← List.append_assoc]
  exact h2

/-- A program of one line runs as that line's step. -/
theorem Runs.singleton {e : BusEvent} (h : ∀ (s : State) (es : List BusEvent),
    step { s with base := base, regs := r, pending := e :: es } =
      .next { s with base := base, regs := r', pending := es, reads := s.reads ++ ws }) :
    Runs base [e] r r' ws := fun s es => by
  have hs : core.step { s with base := base, regs := r, pending := e :: es } = _ := h s es
  simp only [List.length_singleton, List.singleton_append, Host.Core.run, hs]

/-- `CMD <command>` runs the command. -/
theorem Runs.cmdLine (base : Nat) (i : Instr) (r : Regs) : Runs base [cmdLine base i] r (commandRegs i r) [] :=
  Runs.singleton fun s es => by
    rw [step_own_write (w := encode i) (es := es) rfl]
    simp [dispatch, exec_eq, State.onRegs]

/-- `RD <register>` returns the register's value. -/
theorem Runs.rdLine (base : Nat) (n : RegName) (r : Regs) : Runs base [rdLine base n] r r [readReg n r] :=
  Runs.singleton fun s es => by
    have hn : offsetOf n < 0x40 ∧ offsetOf n % 4 = 0 ∧ readOffset (offsetOf n) r = readReg n r := by
      cases n <;> exact ⟨by decide, rfl, rfl⟩
    obtain ⟨hlt, h4, hv⟩ := hn
    rw [(registerMap _ es _ hlt h4).1 rfl, ← readOffset_eq, hv]

/-- The registers after a list of commands. -/
def commandsRegs (is : List Instr) (r : Regs) : Regs := is.foldl (fun r i => commandRegs i r) r

theorem Runs.cmdLines (base : Nat) (is : List Instr) (r : Regs) :
    Runs base (is.map (Machine.cmdLine base)) r (commandsRegs is r) [] := by
  induction is generalizing r with
  | nil => exact Runs.nil base r
  | cons i is ih => exact (Runs.cmdLine base i r).append (ih (commandRegs i r))

/-- A command and the read of its outputs return its RESULT word; the commands after it return nothing. -/
theorem Runs.commandAndRead (base : Nat) (i : Instr) (others : List Instr) (r : Regs) :
    Runs base (commandAndRead base i others) r (commandsRegs others (commandRegs i r)) [(commandRegs i r).result] :=
  ((Runs.cmdLine base i r).append (Runs.rdLine base .result _)).append (Runs.cmdLines base others _)

/-- Any number of lookups and decoder commands leave the encoder alone. -/
theorem commandsRegs_of_sparesEncoder {is : List Instr} (h : ∀ i ∈ is, sparesEncoder i = true) (r : Regs) :
    (commandsRegs is r).encPend = r.encPend ∧ (commandsRegs is r).encPbyte = r.encPbyte := by
  induction is generalizing r with
  | nil => exact ⟨rfl, rfl⟩
  | cons i is ih =>
    obtain ⟨hi, his⟩ := List.forall_mem_cons.mp h
    obtain ⟨_, _, _, _, _, _, _, hr⟩ := commandRegs_of_sparesEncoder hi r
    obtain ⟨hp, hb⟩ := ih his (commandRegs i r)
    exact ⟨hp.trans (by rw [hr]), hb.trans (by rw [hr])⟩

/-- Any number of lookups and encoder commands leave the decoder and the error record alone. -/
theorem commandsRegs_of_sparesDecoder {is : List Instr} (h : ∀ i ∈ is, sparesDecoder i = true) (r : Regs) :
    ∃ p x w, commandsRegs is r = { r with encPend := p, encPbyte := x, result := w } := by
  induction is generalizing r with
  | nil => exact ⟨r.encPend, r.encPbyte, r.result, rfl⟩
  | cons i is ih =>
    obtain ⟨hi, his⟩ := List.forall_mem_cons.mp h
    obtain ⟨_, _, _, hr⟩ := commandRegs_of_sparesDecoder hi r
    obtain ⟨p, x, w, hrs⟩ := ih his (commandRegs i r)
    exact ⟨p, x, w, hrs.trans (by rw [hr])⟩

/-- The bytes or characters of a session with no other commands between them (R79). -/
theorem map_fst_alone (bs : List Byte) : (bs.map fun b => (b, ([] : List Instr))).map Prod.fst = bs := by
  rw [List.map_map]
  exact List.map_id bs

end Sys2Proof.Machine
end

section
/-! What a host collects from the RESULT words it reads (spec 10_state.md R28, 30_encoding.md R79). -/

namespace Sys2Proof.Machine

@[simp] theorem collect_nil : collect [] = [] := rfl

@[simp] theorem collect_cons (w : Word) (ws : List Word) : collect (w :: ws) = outputsOf w ++ collect ws :=
  List.flatMap_cons

@[simp] theorem collect_append (ws ws' : List Word) : collect (ws ++ ws') = collect ws ++ collect ws' :=
  List.flatMap_append

/-- The outputs of an emit's word. -/
theorem outputsOf_resultWord (o : Outputs) : outputsOf (resultWord o) = [o.o0, o.o1, o.o2].take o.n.toNat := by
  have hn : o.n = 0 ∨ o.n = 1 ∨ o.n = 2 ∨ o.n = 3 := by have := o.n.isLt; bv_omega
  rcases hn with hn | hn | hn | hn <;> simp [outputsOf, hn, List.range_succ, slotValue]

@[simp] theorem outputsOf_zero : outputsOf 0#32 = [] := rfl

theorem outputsOf_emitNone (r : Regs) : outputsOf (emitNone r).result = [] := outputsOf_zero

theorem outputsOf_raiseDecodeError (k : ErrKind) (r : Regs) : outputsOf (raiseDecodeError k r).result = [] :=
  outputsOf_zero

/-- A digit's code, as the reference functions look it up. -/
theorem fwd_eq_getD (d : Digit) : (fwdRom.toList[d.val]?).getD 0 = fwd d := by
  simp [fwd]

/-- EncGroup gives the symbols of its value. -/
theorem outputsOf_encGroup (v : Half) : outputsOf (resultWord (encGroup v)) = groupSymbols v.toNat := by
  obtain ⟨h0, h1, h2⟩ := digits_vals v
  have hz : (digits v).2.2 = 0 ↔ v.toNat < 2025 := by
    rw [Fin.ext_iff, h2]
    simp
  rcases encGroup_cases v with ⟨hd, he⟩ | ⟨hd, he⟩
  · have hv := hz.mp hd
    simp only [he, outputsOf_resultWord, groupSymbols, if_pos hv, ← fwd_eq_getD, h0, h1, Nat.mod_eq_of_lt hv]
    rfl
  · have hv := mt hz.mpr hd
    have e0 : v.toNat % 2025 % 45 = v.toNat % 45 := by omega
    have e1 : v.toNat % 2025 / 45 = v.toNat / 45 % 45 := by omega
    simp only [he, outputsOf_resultWord, groupSymbols, if_neg hv, ← fwd_eq_getD, h0, h1, h2, e0, e1]
    rfl

/-- Extract gives the bytes of its value. -/
theorem outputsOf_extract (v : Half) : outputsOf (resultWord (extract v)) = groupBytes v.toNat := by
  have hlo : v.extractLsb' 0 8 = BitVec.ofNat 8 v.toNat := rfl
  have hhi : v.extractLsb' 8 8 = BitVec.ofNat 8 (v.toNat / 256) := by
    apply BitVec.eq_of_toNat_eq
    rw [BitVec.extractLsb'_toNat, Nat.shiftRight_eq_div_pow, BitVec.toNat_ofNat]
  have hz : v.extractLsb' 8 8 = 0 ↔ v.toNat < 256 := by
    have := v.isLt
    rw [hhi, BitVec.toNat_eq]
    simp
    omega
  rcases extract_cases v with ⟨hb, he⟩ | ⟨hb, he⟩
  · simp only [he, outputsOf_resultWord, groupBytes, if_pos (hz.mp hb), hlo]
    rfl
  · simp only [he, outputsOf_resultWord, groupBytes, if_neg (mt hz.mpr hb), hlo, hhi]
    rfl

end Sys2Proof.Machine
end

section
/-! The error fields of STATUS (spec 10_state.md R29), read off the word's number. -/

namespace Sys2Proof.Machine

/-- STATUS.ERR (R29). -/
theorem statusWord_err (r : Regs) : (statusWord r).getLsbD 3 = r.err := by
  have hp := r.encPend.toNat_le
  have he := r.err.toNat_le
  have hbit : (statusWord r).toNat / 2 ^ 3 % 2 = r.err.toNat := by
    rw [statusWord_toNat]
    omega
  rw [BitVec.getLsbD, Nat.testBit_eq_decide_div_mod_eq, hbit]
  cases r.err <;> rfl

/-- STATUS.ERR_KIND (R29). -/
theorem statusWord_errKind (r : Regs) : (statusWord r).extractLsb' 4 2 = r.errKind.code := by
  have hp := r.encPend.toNat_le
  have he := r.err.toNat_le
  apply BitVec.eq_of_toNat_eq
  rw [BitVec.extractLsb'_toNat, Nat.shiftRight_eq_div_pow, statusWord_toNat]
  omega

end Sys2Proof.Machine
end

section
/-! Encode sessions (spec 41_encoder.md R126): what the encoder has emitted and what it still holds are, together, always the
encoding of what it was given. -/

namespace Sys2Proof.Machine

/-- The bytes the accumulator holds: none, or the first of a group (R22). -/
def pendingBytes (r : Regs) : List Byte := if r.encPend then [r.encPbyte] else []

theorem pendingBytes_of_idle {r : Regs} (h : r.encPend = false) : pendingBytes r = [] := by
  simp [pendingBytes, h]

theorem pendingBytes_of_holding {r : Regs} (h : r.encPend = true) : pendingBytes r = [r.encPbyte] := if_pos h

theorem pendingBytes_commandsRegs {is : List Instr} (h : ∀ i ∈ is, sparesEncoder i = true) (r : Regs) :
    pendingBytes (commandsRegs is r) = pendingBytes r := by
  obtain ⟨hp, hb⟩ := commandsRegs_of_sparesEncoder h r
  simp only [pendingBytes, hp, hb]

/-- ENC.BYTE turns a byte of input into outputs and a pending byte. -/
theorem outputsOf_encByte (b : Byte) (r : Regs) (bs : List Byte) :
    outputsOf (encByteRegs b r).result ++ encodeBytes (pendingBytes (encByteRegs b r) ++ bs) =
      encodeBytes (pendingBytes r ++ b :: bs) := by
  rcases encByteRegs_cases b r with ⟨hp, hr⟩ | ⟨hp, hr⟩
  · rw [hr, pendingBytes_of_holding hp, pendingBytes_of_idle rfl, emit_result, outputsOf_encGroup, pairValue_toNat]
    rfl
  · rw [hr, pendingBytes_of_idle hp, pendingBytes_of_holding rfl, outputsOf_emitNone]
    rfl

/-- ENC.END turns the pending byte into outputs. -/
theorem outputsOf_encEnd (r : Regs) : outputsOf (encEndRegs r).result = encodeBytes (pendingBytes r) := by
  rcases encEndRegs_cases r with ⟨hp, hr⟩ | ⟨hp, hr⟩
  · rw [hr, pendingBytes_of_holding hp, emit_result, outputsOf_encGroup, loneValue_toNat]
    rfl
  · rw [hr, pendingBytes_of_idle hp, outputsOf_emitNone]
    rfl

theorem encEndRegs_encPend (r : Regs) : (encEndRegs r).encPend = false := by
  rcases encEndRegs_cases r with ⟨-, hr⟩ | ⟨-, hr⟩ <;> exact congrArg Regs.encPend hr

/-- A session without its ENC.START, from any registers, encodes the pending byte and the bytes it feeds. -/
theorem Runs.encSession (base : Nat) (bs : List (Byte × List Instr)) (r : Regs)
    (h : ∀ p ∈ bs, ∀ i ∈ p.2, sparesEncoder i = true) :
    ∃ r' ws, Runs base (encSession base bs) r r' ws ∧
      collect ws = encodeBytes (pendingBytes r ++ bs.map Prod.fst) ∧ r'.encPend = false := by
  induction bs generalizing r with
  | nil =>
    refine ⟨_, _, Runs.commandAndRead base .encEnd [] r, ?_, encEndRegs_encPend r⟩
    rw [List.map_nil, List.append_nil, ← outputsOf_encEnd]
    exact List.append_nil _
  | cons p bs ih =>
    obtain ⟨b, others⟩ := p
    obtain ⟨ho, hbs⟩ := List.forall_mem_cons.mp h
    obtain ⟨r', ws, hrun, hws, hend⟩ := ih (commandsRegs others (encByteRegs b r)) hbs
    refine ⟨r', [(encByteRegs b r).result] ++ ws, ?_, ?_, hend⟩
    · rw [Machine.encSession, List.flatMap_cons, List.append_assoc]
      exact (Runs.commandAndRead base (.encByte b) others r).append hrun
    · rw [collect_append, hws, pendingBytes_commandsRegs ho]
      simpa using outputsOf_encByte b r (bs.map Prod.fst)

/-- ENC.BYTE holds a byte exactly if it held none. -/
theorem encByteRegs_encPend (b : Byte) (r : Regs) : (encByteRegs b r).encPend = !r.encPend := by
  rcases encByteRegs_cases b r with ⟨hp, hr⟩ | ⟨hp, hr⟩ <;> rw [hr, hp] <;> rfl

/-- ENC.PAIR with no byte pending encodes its two bytes (R79). -/
theorem Runs.encPair (base : Nat) (b1 b2 : Byte) {r : Regs} (h : r.encPend = false) :
    ∃ r' ws, Runs base (encPair base b1 b2) r r' ws ∧ collect ws = encodeBytes [b1, b2] := by
  refine ⟨_, _, (Runs.commandAndRead base (.encByte b1) [] r).append (Runs.commandAndRead base (.encByte b2) [] _), ?_⟩
  have h1 := outputsOf_encByte b1 r [b2]
  have h2 := outputsOf_encByte b2 (encByteRegs b1 r) []
  have hidle : (encByteRegs b2 (encByteRegs b1 r)).encPend = false := by
    rw [encByteRegs_encPend, encByteRegs_encPend, h]
    rfl
  rw [pendingBytes_of_idle hidle] at h2
  rw [pendingBytes_of_idle h, ← h2] at h1
  exact h1

/-- ENC.BYTES, from any registers, encodes its bytes: its ENC.START drops a byte pending (R79, R123). -/
theorem Runs.encBytesMacro (base : Nat) (bs : List Byte) (r : Regs) :
    ∃ r' ws, Runs base (encBytesMacro base bs) r r' ws ∧ collect ws = encodeBytes bs := by
  obtain ⟨r', ws, hrun, hws, -⟩ := Runs.encSession base (bs.map fun b => (b, [])) (commandRegs .encStart r) (by simp)
  refine ⟨r', ws, (Runs.cmdLine base .encStart r).append hrun, ?_⟩
  rw [hws, pendingBytes_of_idle rfl, map_fst_alone, List.nil_append]

end Sys2Proof.Machine
end

section
/-! Decode sessions (spec 42_decoder.md R146): the decoder's registers between two symbols, and what each symbol and DEC.END
make of them, against decode_to_bytes. -/

namespace Sys2Proof.Machine

/-- The place of a digit's code in the forward table, which holds each code once. -/
theorem findIdx?_fwd : ∀ d : Digit, fwdRom.toList.findIdx? (· == fwd d) = some d.val := by decide

theorem fwd_injective : Function.Injective fwd := fun d d' h =>
  Fin.ext (Option.some.inj ((findIdx?_fwd d).symm.trans (h ▸ findIdx?_fwd d')))

theorem findIdx?_invalid {c : Byte} (hc : ∀ d : Digit, fwd d ≠ c) : fwdRom.toList.findIdx? (· == c) = none := by
  rcases inv_cases c with ⟨d, hd, -⟩ | ⟨-, hi⟩
  · exact absurd hd (hc d)
  · unfold inv at hi
    split at hi
    · cases hi
    · assumption

/-- The value of a group's digits, the first of them the least significant (R141). -/
def groupValue (ds : List Digit) : Nat := Nat.ofDigits 45 (ds.map Fin.val)

theorem groupValue_concat (ds : List Digit) (d : Digit) :
    groupValue (ds ++ [d]) = groupValue ds + d.val * 45 ^ ds.length := by
  simp [groupValue, Nat.ofDigits_append, Nat.mul_comm]

theorem groupValue_lt (ds : List Digit) : groupValue ds < 45 ^ ds.length := by
  have h := Nat.ofDigits_lt_base_pow_length (b := 45) (l := ds.map Fin.val) (by decide) (by simp)
  rwa [List.length_map] at h

/-- Fewer than three digits make at most 2024, so only a third can overflow (R141). -/
theorem length_of_overflow {ds : List Digit} {d : Digit} (hl : ds.length < 3) (hv : 65535 < groupValue (ds ++ [d])) :
    ds.length = 2 := by
  by_contra hne
  have hlt := groupValue_lt (ds ++ [d])
  have hpow : 45 ^ (ds ++ [d]).length ≤ 45 ^ 2 := Nat.pow_le_pow_right (by decide) (by simp; omega)
  omega

/-- The decoder in a session without an error, after the digits ds of the group whose first symbol stands at pos. -/
structure InGroup (pos : Nat) (ds : List Digit) (r : Regs) : Prop where
  length_lt : ds.length < 3
  err : r.err = false
  errPos : r.errPos = 0
  decPos : r.decPos.toNat = ds.length
  decAcc : r.decAcc.toNat = groupValue ds
  decCnt : r.decCnt = BitVec.ofNat 32 (pos + ds.length)

theorem InGroup.start (r : Regs) : InGroup 0 [] (decStartRegs r) where
  length_lt := by decide
  err := rfl
  errPos := rfl
  decPos := rfl
  decAcc := rfl
  decCnt := rfl

/-- Lookups and encoder commands leave the decoder in its group. -/
theorem InGroup.commandsRegs {pos : Nat} {ds : List Digit} {r : Regs} (h : InGroup pos ds r) {is : List Instr}
    (his : ∀ i ∈ is, sparesDecoder i = true) : InGroup pos ds (commandsRegs is r) := by
  obtain ⟨p, x, w, hr⟩ := commandsRegs_of_sparesDecoder his r
  exact hr ▸ { h with }

section
variable {pos : Nat} {ds : List Digit} {r : Regs} (h : InGroup pos ds r)
include h

/-- The exact sum DEC.SYM compares and narrows is the value of the group with the new digit. -/
theorem InGroup.sum_eq (d : Digit) : r.decAcc.toNat + partialTerm d.val r.decPos.toNat = groupValue (ds ++ [d]) := by
  rw [h.decAcc, h.decPos, groupValue_concat]

theorem InGroup.overflows_iff (d : Digit) :
    overflows d.val r.decPos.toNat r.decAcc.toNat = true ↔ 65535 < groupValue (ds ++ [d]) := by
  rw [← h.sum_eq d, overflows, Bool.or_eq_true, decide_eq_true_iff, decide_eq_true_iff]
  omega

/-- A code of no symbol is the invalid-symbol error. -/
theorem InGroup.decSym_invalid {c : Byte} (hc : ∀ d : Digit, fwd d ≠ c) :
    decSymRegs c r = raiseDecodeError .invalidSymbol r := by
  rcases decSymRegs_cases c r with ⟨he, -⟩ | ⟨-, -, hr⟩ | ⟨d, -, hd, -, -⟩ | ⟨d, -, hd, -, -⟩
  · cases h.err.symm.trans he
  · exact hr
  · exact absurd hd (hc d)
  · exact absurd hd (hc d)

/-- A symbol's code overflows the group or is taken as its digit. -/
theorem InGroup.decSym_fwd (d : Digit) :
    (65535 < groupValue (ds ++ [d]) ∧ decSymRegs (fwd d) r = raiseDecodeError .overflow r) ∨
    (groupValue (ds ++ [d]) ≤ 65535 ∧ decSymRegs (fwd d) r = acceptDigit d.val r) := by
  rcases decSymRegs_cases (fwd d) r with ⟨he, -⟩ | ⟨-, hn, -⟩ | ⟨d', -, hd, ho, hr⟩ | ⟨d', -, hd, ho, hr⟩
  · cases h.err.symm.trans he
  · exact absurd rfl (hn d)
  · obtain rfl := fwd_injective hd
    exact .inl ⟨(h.overflows_iff d').mp ho, hr⟩
  · obtain rfl := fwd_injective hd
    rw [← Bool.not_eq_true, h.overflows_iff] at ho
    exact .inr ⟨by omega, hr⟩

/-- The first or second digit of a group joins it. -/
theorem InGroup.acceptDigit_join {d : Digit} (hl : ds.length < 2) (hv : groupValue (ds ++ [d]) ≤ 65535) :
    InGroup pos (ds ++ [d]) (acceptDigit d.val r) ∧ outputsOf (acceptDigit d.val r).result = [] := by
  have hp := h.decPos
  rcases acceptDigit_cases d.val r with ⟨-, ha⟩ | ⟨h2, -⟩
  · rw [ha, h.sum_eq d]
    refine ⟨?_, outputsOf_emitNone _⟩
    exact {
      length_lt := by simp; omega
      err := h.err
      errPos := h.errPos
      decPos := by simp [decGroup]; omega
      decAcc := by simp [decGroup]; omega
      decCnt := by simp [decGroup, h.decCnt, BitVec.ofNat_add, BitVec.add_assoc] }
  · omega

/-- The third digit of a group completes it. -/
theorem InGroup.acceptDigit_complete {d : Digit} (hl : ds.length = 2) (hv : groupValue (ds ++ [d]) ≤ 65535) :
    InGroup (pos + 3) [] (acceptDigit d.val r) ∧
      outputsOf (acceptDigit d.val r).result = groupBytes (groupValue (ds ++ [d])) := by
  have hp := h.decPos
  rcases acceptDigit_cases d.val r with ⟨h2, -⟩ | ⟨-, ha⟩
  · omega
  · rw [ha, h.sum_eq d]
    constructor
    · exact {
        length_lt := by decide
        err := h.err
        errPos := h.errPos
        decPos := rfl
        decAcc := rfl
        decCnt := by simp [decGroup, h.decCnt, hl, BitVec.ofNat_add, BitVec.add_assoc] }
    · rw [emit_result, outputsOf_extract, BitVec.toNat_ofNat, Nat.mod_eq_of_lt (by omega)]

/-- DEC.END ends the session with the bytes of a group that has begun. -/
theorem InGroup.decEnd : (decEndRegs r).err = false ∧ (decEndRegs r).errPos = 0 ∧
    outputsOf (decEndRegs r).result = if ds = [] then [] else groupBytes (groupValue ds) := by
  have hz : r.decPos = 0 ↔ ds = [] := by
    rw [BitVec.toNat_eq, h.decPos]
    exact List.length_eq_zero_iff
  rcases decEndRegs_cases r with ⟨he, -⟩ | ⟨-, hd, hr⟩ | ⟨-, hd, hr⟩
  · cases h.err.symm.trans he
  · rw [hr, if_pos (hz.mp hd)]
    exact ⟨h.err, h.errPos, outputsOf_emitNone _⟩
  · rw [hr, if_neg (mt hz.mpr hd), ← h.decAcc]
    exact ⟨h.err, h.errPos, outputsOf_extract _⟩

end

/-- A session that has failed, with the kind and the position it reports (R30, R31). -/
structure Failed (k : ErrKind) (p : Word) (r : Regs) : Prop where
  err : r.err = true
  errKind : r.errKind = k
  errPos : r.errPos = p

theorem InGroup.raise {pos : Nat} {ds : List Digit} {r : Regs} (h : InGroup pos ds r) (k : ErrKind) :
    Failed k (BitVec.ofNat 32 (pos + ds.length)) (raiseDecodeError k r) := ⟨rfl, rfl, h.decCnt⟩

section
variable {k : ErrKind} {p : Word} {r : Regs} (h : Failed k p r)
include h

theorem Failed.commandsRegs {is : List Instr} (his : ∀ i ∈ is, sparesDecoder i = true) :
    Failed k p (commandsRegs is r) := by
  obtain ⟨_, _, _, hr⟩ := commandsRegs_of_sparesDecoder his r
  exact hr ▸ ⟨h.err, h.errKind, h.errPos⟩

/-- A failed session ignores symbols (R185). -/
theorem Failed.decSym (c : Byte) : decSymRegs c r = emitNone r := by
  rcases decSymRegs_cases c r with ⟨-, hr⟩ | ⟨he, -⟩ | ⟨_, he, -⟩ | ⟨_, he, -⟩
  · exact hr
  all_goals cases he.symm.trans h.err

/-- A failed session ignores DEC.END (R185). -/
theorem Failed.decEnd : decEndRegs r = emitNone r := by
  rcases decEndRegs_cases r with ⟨-, hr⟩ | ⟨he, -⟩ | ⟨he, -⟩
  · exact hr
  all_goals cases he.symm.trans h.err

theorem Failed.emitNone : Failed k p (emitNone r) := ⟨h.err, h.errKind, h.errPos⟩

end

end Sys2Proof.Machine
end

section
/-! decode_to_bytes by groups (spec 42_decoder.md R140, R149): what it answers on the digits of a group so far, followed by
nothing, by a code of no symbol, or by the group's last digit. -/

namespace Sys2Proof.Machine

/-- A lookup that finds a digit goes on with it. -/
@[simp] theorem ok_bind {ε α β : Type} (a : α) (f : α → Except ε β) : (Except.ok a >>= f) = f a := rfl

/-- A failed lookup ends the computation. -/
@[simp] theorem error_bind {ε α β : Type} (e : ε) (f : α → Except ε β) : (Except.error e >>= f) = .error e := rfl

variable (pos : Nat) {ds : List Digit}

theorem digitAt_fwd (d : Digit) : digitAt pos (fwd d) = .ok d.val := by
  simp [digitAt, findIdx?_fwd d]

theorem digitAt_invalid {c : Byte} (hc : ∀ d : Digit, fwd d ≠ c) : digitAt pos c = .error (.invalidSymbol, pos) := by
  simp [digitAt, findIdx?_invalid hc]

/-- The input ends within a group. -/
theorem decodeFrom_partial (hl : ds.length < 3) :
    decodeFrom pos (ds.map fwd) = .ok (if ds = [] then [] else groupBytes (groupValue ds)) := by
  match ds, hl with
  | [], _ => rfl
  | [d0], _ => simp [decodeFrom, digitAt_fwd, groupValue]
  | [d0, d1], _ => simp [decodeFrom, digitAt_fwd, groupValue, Nat.ofDigits, Nat.mul_comm]

/-- A code of no symbol within a group. -/
theorem decodeFrom_invalid (hl : ds.length < 3) {c : Byte} (hc : ∀ d : Digit, fwd d ≠ c) (cs : List Byte) :
    decodeFrom pos (ds.map fwd ++ c :: cs) = .error (.invalidSymbol, pos + ds.length) := by
  match ds, hl, cs with
  | [], _, [] => simp [decodeFrom, digitAt_invalid _ hc]
  | [], _, [c1] => simp [decodeFrom, digitAt_invalid _ hc]
  | [], _, c1 :: c2 :: cs => simp [decodeFrom, digitAt_invalid _ hc]
  | [d0], _, [] => simp [decodeFrom, digitAt_fwd, digitAt_invalid _ hc]
  | [d0], _, c2 :: cs => simp [decodeFrom, digitAt_fwd, digitAt_invalid _ hc]
  | [d0, d1], _, cs => simp [decodeFrom, digitAt_fwd, digitAt_invalid _ hc]

/-- A whole group. -/
theorem decodeFrom_group (hl : ds.length = 3) (cs : List Byte) :
    decodeFrom pos (ds.map fwd ++ cs) =
      if 65535 < groupValue ds then .error (.overflow, pos + 2)
      else (groupBytes (groupValue ds) ++ ·) <$> decodeFrom (pos + 3) cs := by
  match ds, hl with
  | [d0, d1, d2], _ =>
    have hv : groupValue [d0, d1, d2] = d0.val + d1.val * 45 + d2.val * 2025 := by
      simp [groupValue, Nat.ofDigits]
      omega
    simp only [hv, List.map_cons, List.map_nil, List.cons_append, List.nil_append, decodeFrom, digitAt_fwd, ok_bind]
    split
    · rw [if_pos (by omega)]
    · rw [if_neg (by omega)]
      cases decodeFrom (pos + 3) cs <;> rfl

end Sys2Proof.Machine
end

section
/-! Decode sessions against decode_to_bytes (spec 42_decoder.md R146), and the expansions of 30_encoding.md R79. -/

namespace Sys2Proof.Machine

/-- What a decode session leaves in the registers and has put out, against decode_to_bytes of its characters from position
pos on: either its result, or its error together with the bytes of the groups completed before it (R146). -/
inductive Reports (pos : Nat) (cs : List Byte) (r : Regs) (out : List Byte) : Prop
  | ok (hd : decodeFrom pos cs = .ok out) (he : r.err = false) (hp : r.errPos = 0)
  | error (k : ErrKind) (p : Nat) (hd : decodeFrom pos cs = .error (k, p)) (hf : Failed k (BitVec.ofNat 32 p) r)
      (hle : pos ≤ p) (hout : decodeFrom pos (cs.take (3 * ((p - pos) / 3))) = .ok out)

/-- A complete group before the rest of a session adds its bytes. -/
theorem Reports.group {pos : Nat} {cs : List Byte} {r : Regs} {out : List Byte} (h : Reports (pos + 3) cs r out)
    {ds : List Digit} (hl : ds.length = 3) (hv : groupValue ds ≤ 65535) :
    Reports pos (ds.map fwd ++ cs) r (groupBytes (groupValue ds) ++ out) := by
  have hg (cs : List Byte) : decodeFrom pos (ds.map fwd ++ cs) =
      (groupBytes (groupValue ds) ++ ·) <$> decodeFrom (pos + 3) cs := by
    rw [decodeFrom_group pos hl, if_neg (by omega)]
  cases h with
  | ok hd he hp => exact .ok (by rw [hg, hd]; rfl) he hp
  | error k p hd hf hle hout =>
    refine .error k p (by rw [hg, hd]; rfl) hf (by omega) ?_
    have hn : 3 * ((p - pos) / 3) = (ds.map fwd).length + 3 * ((p - (pos + 3)) / 3) := by
      rw [List.length_map, hl]
      omega
    rw [hn, List.take_length_add_append, hg, hout]
    rfl

/-- A digit that is taken leaves the decoder in a group again, from where the rest of the session adds to its outputs. -/
theorem InGroup.acceptDigit_reports {pos : Nat} {ds : List Digit} {r : Regs} (h : InGroup pos ds r) {d : Digit}
    (hv : groupValue (ds ++ [d]) ≤ 65535) :
    ∃ pos' ds', InGroup pos' ds' (acceptDigit d.val r) ∧
      ∀ cs r' out, Reports pos' (ds'.map fwd ++ cs) r' out →
        Reports pos ((ds ++ [d]).map fwd ++ cs) r' (outputsOf (acceptDigit d.val r).result ++ out) := by
  have hlt := h.length_lt
  by_cases hl : ds.length < 2
  · obtain ⟨hg, hout⟩ := h.acceptDigit_join hl hv
    exact ⟨pos, ds ++ [d], hg, fun cs r' out hrep => by rwa [hout]⟩
  · obtain ⟨hg, hout⟩ := h.acceptDigit_complete (by omega) hv
    exact ⟨pos + 3, [], hg, fun cs r' out hrep => hout ▸ hrep.group (by simp; omega) hv⟩

/-- A failure within the first group comes before any output. -/
theorem Reports.of_error {pos : Nat} {cs : List Byte} {r : Regs} {k : ErrKind} {n : Nat} (hn : n < 3)
    (hd : decodeFrom pos cs = .error (k, pos + n)) (hf : Failed k (BitVec.ofNat 32 (pos + n)) r) :
    Reports pos cs r [] := by
  refine .error k (pos + n) hd hf (by omega) ?_
  rw [show 3 * ((pos + n - pos) / 3) = 0 by omega, List.take_zero]
  rfl

section
variable (base : Nat)

/-- The end of a session: DEC.END and the reads of RESULT, STATUS and ERRPOS. -/
theorem Runs.decSession_nil (r : Regs) : Runs base (decSession base []) r (decEndRegs r)
    ([(decEndRegs r).result] ++ [statusWord (decEndRegs r), (decEndRegs r).errPos]) :=
  (Runs.commandAndRead base .decEnd [] r).append
    ((Runs.rdLine base .status (decEndRegs r)).append (Runs.rdLine base .errPos (decEndRegs r)))

/-- A session's first symbol, the commands after it, and the rest of the session. -/
theorem Runs.decSession_cons {c : Byte} {others : List Instr} {cs : List (Byte × List Instr)} {r r' : Regs}
    {ws : List Word} (h : Runs base (decSession base cs) (commandsRegs others (decSymRegs c r)) r' ws) :
    Runs base (decSession base ((c, others) :: cs)) r r' ((decSymRegs c r).result :: ws) := by
  have hprog : Machine.decSession base ((c, others) :: cs) =
      Machine.commandAndRead base (.decSym c) others ++ Machine.decSession base cs := by
    simp only [Machine.decSession, List.flatMap_cons, List.append_assoc]
  rw [hprog]
  exact (Runs.commandAndRead base (.decSym c) others r).append h

/-- A failed session keeps its report and gives no outputs (R185). -/
theorem Runs.decSession_failed (cs : List (Byte × List Instr)) (hcs : ∀ q ∈ cs, ∀ i ∈ q.2, sparesDecoder i = true)
    {k : ErrKind} {p : Word} {r : Regs} (h : Failed k p r) :
    ∃ r' ws, Runs base (decSession base cs) r r' (ws ++ [statusWord r', r'.errPos]) ∧ Failed k p r' ∧ collect ws = [] := by
  induction cs generalizing r with
  | nil =>
    refine ⟨_, _, Runs.decSession_nil base r, ?_⟩
    rw [h.decEnd]
    exact ⟨h.emitNone, by simp⟩
  | cons q cs ih =>
    obtain ⟨c, others⟩ := q
    obtain ⟨ho, hcs'⟩ := List.forall_mem_cons.mp hcs
    have hf : Failed k p (commandsRegs others (decSymRegs c r)) := by
      rw [h.decSym]
      exact h.emitNone.commandsRegs ho
    obtain ⟨r', ws, hrun, hf', hws⟩ := ih hcs' hf
    refine ⟨r', _ :: ws, Runs.decSession_cons base hrun, hf', ?_⟩
    rw [h.decSym, collect_cons, outputsOf_emitNone, hws]
    rfl

/-- A session that fails at its first symbol, the next of a group, reports that position. -/
theorem Runs.decSession_raise {pos : Nat} {ds : List Digit} {r : Regs} (h : InGroup pos ds r) {c : Byte} {k : ErrKind}
    (hr : decSymRegs c r = raiseDecodeError k r) {others : List Instr} (ho : ∀ i ∈ others, sparesDecoder i = true)
    (cs : List (Byte × List Instr)) (hcs : ∀ q ∈ cs, ∀ i ∈ q.2, sparesDecoder i = true)
    (hd : decodeFrom pos (ds.map fwd ++ c :: cs.map Prod.fst) = .error (k, pos + ds.length)) :
    ∃ r' ws, Runs base (decSession base ((c, others) :: cs)) r r' (ws ++ [statusWord r', r'.errPos]) ∧
      Reports pos (ds.map fwd ++ c :: cs.map Prod.fst) r' (collect ws) := by
  have hf := (h.raise k).commandsRegs ho
  rw [← hr] at hf
  obtain ⟨r', ws, hrun, hf', hws⟩ := Runs.decSession_failed base cs hcs hf
  refine ⟨r', _ :: ws, Runs.decSession_cons base hrun, ?_⟩
  rw [hr, collect_cons, outputsOf_raiseDecodeError, hws]
  exact Reports.of_error h.length_lt hd hf'

/-- A session from within a group reports decode_to_bytes of the group's symbols so far and its own. -/
theorem Runs.decSession (cs : List (Byte × List Instr)) (hcs : ∀ q ∈ cs, ∀ i ∈ q.2, sparesDecoder i = true)
    {pos : Nat} {ds : List Digit} {r : Regs} (h : InGroup pos ds r) :
    ∃ r' ws, Runs base (decSession base cs) r r' (ws ++ [statusWord r', r'.errPos]) ∧
      Reports pos (ds.map fwd ++ cs.map Prod.fst) r' (collect ws) := by
  induction cs generalizing pos ds r with
  | nil =>
    obtain ⟨he, hp, hout⟩ := h.decEnd
    refine ⟨_, _, Runs.decSession_nil base r, .ok ?_ he hp⟩
    rw [List.map_nil, List.append_nil, decodeFrom_partial pos h.length_lt, ← hout]
    simp
  | cons q cs ih =>
    obtain ⟨c, others⟩ := q
    obtain ⟨ho, hcs'⟩ := List.forall_mem_cons.mp hcs
    rw [List.map_cons]
    by_cases hc : ∃ d : Digit, fwd d = c
    · obtain ⟨d, rfl⟩ := hc
      have hsnoc : ds.map fwd ++ fwd d :: cs.map Prod.fst = (ds ++ [d]).map fwd ++ cs.map Prod.fst := by simp
      rcases h.decSym_fwd d with ⟨hv, hr⟩ | ⟨hv, hr⟩
      · have hl := length_of_overflow h.length_lt hv
        refine Runs.decSession_raise base h hr ho cs hcs' ?_
        rw [hsnoc, decodeFrom_group pos (by simp [hl]), if_pos hv, hl]
      · obtain ⟨pos', ds', hg, hrest⟩ := h.acceptDigit_reports hv
        rw [← hr] at hg hrest
        obtain ⟨r', ws, hrun, hrep⟩ := ih hcs' (hg.commandsRegs ho)
        refine ⟨r', _ :: ws, Runs.decSession_cons base hrun, ?_⟩
        rw [collect_cons, hsnoc]
        exact hrest _ _ _ hrep
    · have hn : ∀ d : Digit, fwd d ≠ c := fun d hd => hc ⟨d, hd⟩
      exact Runs.decSession_raise base h (h.decSym_invalid hn) ho cs hcs' (decodeFrom_invalid pos h.length_lt hn _)

/-- DEC.TEXT, from any registers, reports decode_to_bytes of its characters (R79). -/
theorem Runs.decTextMacro (cs : List Byte) (r : Regs) :
    ∃ r' ws, Runs base (decTextMacro base cs) r r' (ws ++ [statusWord r', r'.errPos]) ∧ Reports 0 cs r' (collect ws) := by
  obtain ⟨r', ws, hrun, hrep⟩ := Runs.decSession base (cs.map fun c => (c, [])) (by simp) (InGroup.start r)
  rw [map_fst_alone] at hrep
  exact ⟨r', ws, (Runs.cmdLine base .decStart r).append hrun, hrep⟩

theorem length_encBytesMacro (bs : List Byte) : (encBytesMacro base bs).length = 2 * bs.length + 3 := by
  induction bs with
  | nil => rfl
  | cons b bs ih => simp [encBytesMacro, encSession, commandAndRead] at ih ⊢; omega

theorem length_decTextMacro (cs : List Byte) : (decTextMacro base cs).length = 2 * cs.length + 5 := by
  induction cs with
  | nil => rfl
  | cons c cs ih => simp [decTextMacro, Machine.decSession, commandAndRead] at ih ⊢; omega

end

/-- Settles O28: each expansion is a run at the machine's own window. -/
theorem hostMacrosComputeTheirOperations : Obligations.HostMacrosComputeTheirOperations := by
  refine ⟨fun s bs es hp => ?_, fun s b1 b2 es h hp => ?_, fun s cs es hp => ?_⟩
  · obtain ⟨r', ws, hrun, hws⟩ := Runs.encBytesMacro s.base bs s.regs
    rw [← length_encBytesMacro s.base bs]
    exact ⟨_, ws, hrun.run hp, rfl, rfl, hws⟩
  · obtain ⟨r', ws, hrun, hws⟩ := Runs.encPair s.base b1 b2 h
    exact ⟨_, ws, hrun.run hp, rfl, rfl, hws⟩
  · obtain ⟨r', ws, hrun, hrep⟩ := Runs.decTextMacro s.base cs s.regs
    rw [← length_decTextMacro s.base cs]
    refine ⟨_, ws, statusWord r', r'.errPos, hrun.run hp, rfl, (List.append_assoc _ _ _).symm, ?_⟩
    rw [statusWord_err, statusWord_errKind]
    cases hrep with
    | ok hd he hp => simp [decodeToBytes, hd, he]
    | error k p hd hf hle hout => simp [decodeToBytes, hd, hf.err, hf.errKind, hf.errPos]

end Sys2Proof.Machine
end

section
/-! The alphabet's tables (spec 40_alphabet.md R100-R103): the symbol codes, and the inverse table's entry for each code. -/

namespace Sys2Proof.Machine

/-- Settles O6, by reading the 45 entries. -/
theorem forwardTableClosedForm : Obligations.ForwardTableClosedForm :=
  ⟨by decide, by decide, rfl⟩

/-- Settles O7. -/
theorem forwardTableIsInjective : Obligations.ForwardTableIsInjective :=
  ⟨fun _ _ h => fwd_injective h, by decide⟩

/-- A symbol's code looks up its digit. -/
@[simp] theorem inv_fwd (d : Digit) : inv (fwd d) = ⟨true, BitVec.ofNat 6 d.val⟩ := by
  rw [inv, findIdx?_fwd]

/-- A code of no symbol looks up the invalid marker. -/
theorem inv_of_no_symbol {c : Byte} (hc : ∀ d : Digit, fwd d ≠ c) : inv c = ⟨false, 0⟩ := by
  rw [inv, findIdx?_invalid hc]

/-- The valid codes are the symbols' codes. -/
theorem inv_valid_iff {c : Byte} : (inv c).valid = true ↔ ∃ d : Digit, fwd d = c := by
  rcases inv_cases c with ⟨d, hd, hi⟩ | ⟨hn, hi⟩
  · exact iff_of_true (by rw [hi]) ⟨d, hd⟩
  · exact iff_of_false (by rw [hi]; decide) fun ⟨d, hd⟩ => hn d hd

/-- The codes of 0 to 9 are those of the digits 0..9. -/
theorem exists_fwd_of_decimal {c : Byte} (h : 0x30 ≤ c.toNat ∧ c.toNat ≤ 0x39) : ∃ d : Digit, fwd d = c := by
  obtain ⟨hdec, -, -⟩ := forwardTableClosedForm
  have hd := hdec ⟨c.toNat - 0x30, by omega⟩ (by simp only; omega)
  exact ⟨_, BitVec.eq_of_toNat_eq (hd.trans (by simp only; omega))⟩

/-- The codes of A to Z are those of the digits 10..35. -/
theorem exists_fwd_of_letter {c : Byte} (h : 0x41 ≤ c.toNat ∧ c.toNat ≤ 0x5A) : ∃ d : Digit, fwd d = c := by
  obtain ⟨-, hlet, -⟩ := forwardTableClosedForm
  have hd := hlet ⟨10 + (c.toNat - 0x41), by omega⟩ (by simp only; omega) (by simp only; omega)
  exact ⟨_, BitVec.eq_of_toNat_eq (hd.trans (by simp only; omega))⟩

/-- Settles O8: the entries follow from the forward table, and so do the valid codes, which are its 45 codes. -/
theorem inverseTableEntries : Obligations.InverseTableEntries := by
  refine ⟨fun d => ?_, fun c hc => ?_, fun c => ?_⟩
  · rw [inv_fwd]
    rfl
  · rw [inv_of_no_symbol hc]
    rfl
  · rw [inv_valid_iff]
    constructor
    · rintro ⟨d, rfl⟩
      revert d
      decide
    · rintro (rfl | rfl | rfl | rfl | rfl | rfl | rfl | rfl | rfl | h | h)
      · exact ⟨36, rfl⟩
      · exact ⟨37, rfl⟩
      · exact ⟨38, rfl⟩
      · exact ⟨39, rfl⟩
      · exact ⟨40, rfl⟩
      · exact ⟨41, rfl⟩
      · exact ⟨42, rfl⟩
      · exact ⟨43, rfl⟩
      · exact ⟨44, rfl⟩
      · exact exists_fwd_of_decimal h
      · exact exists_fwd_of_letter h

end Sys2Proof.Machine
end

section
/-! The lookup commands (spec 40_alphabet.md R103-R105): the word each leaves in RESULT, which is all it changes. -/

namespace Sys2Proof.Machine

/-- An emit of one output: NOUT = 1 above the two empty slots and the output. -/
theorem resultWord_single (b : Byte) : resultWord ⟨b, 0x00, 0x00, 1⟩ = 0x010000#24 ++ b :=
  congrArg (· ++ b) (show (0#5 ++ 0#1 ++ 1#2 ++ 0#8 ++ 0#8 : BitVec 24) = 0x010000#24 by decide)

theorem resultOut_single (b : Byte) : resultOut (resultWord ⟨b, 0x00, 0x00, 1⟩) 0 = b :=
  resultOut_resultWord_zero _

theorem lutFwdRegs_of_digit {n : Byte} {d : Digit} (h : n.toNat = d.val) (r : Regs) :
    lutFwdRegs n r = emit ⟨fwd d, 0x00, 0x00, 1⟩ r := by
  rcases lutFwdRegs_cases n r with ⟨d', hd, hr⟩ | ⟨hn, -⟩
  · obtain rfl : d' = d := Fin.ext (hd.trans h)
    exact hr
  · omega

theorem lutFwdRegs_of_large {n : Byte} (h : 44 < n.toNat) (r : Regs) : lutFwdRegs n r = emitInvalid r :=
  dif_neg (by omega)

/-- LUT.INV widens the entry's index, which holds the digit exactly. -/
theorem lutInvRegs_fwd (d : Digit) (r : Regs) :
    lutInvRegs (fwd d) r = emit ⟨BitVec.ofNat 8 d.val, 0x00, 0x00, 1⟩ r := by
  have hw : (BitVec.ofNat 6 d.val).setWidth 8 = BitVec.ofNat 8 d.val := by
    rw [← BitVec.ofNat_toNat, digit_idx]
  simp [lutInvRegs, hw]

theorem lutInvRegs_of_no_symbol {c : Byte} (hc : ∀ d : Digit, fwd d ≠ c) (r : Regs) : lutInvRegs c r = emitInvalid r := by
  simp [lutInvRegs, inv_of_no_symbol hc]

/-- A word whose upper three bytes are a command's RSV and OP, and whose low byte is its operand, decodes to it. -/
theorem decode_append_operand (i : Instr) {h : BitVec 24} (hh : h = 0#16 ++ i.opcode) :
    decode (h ++ i.operand) = .ok i :=
  decode_eq_ok_iff.mpr (congrArg (· ++ i.operand) hh)

/-- Settles O10: the two cases of the index. -/
theorem lutFwdWritesTheSymbolOrTheMarker : Obligations.LutFwdWritesTheSymbolOrTheMarker := by
  refine fun i s =>
    ⟨decode_append_operand (.lutFwd i) (show 0x000030#24 = 0#16 ++ 0x30#8 by decide), fun d hd => ?_, fun hi => ?_⟩
  · rw [exec_next_iff, State.onRegs, commandRegs, lutFwdRegs_of_digit hd, emit, resultWord_single]
  · rw [exec_next_iff, State.onRegs, commandRegs, lutFwdRegs_of_large hi]
    rfl

/-- Settles O11: the two cases of the code. -/
theorem lutInvWritesTheDigitOrTheMarker : Obligations.LutInvWritesTheDigitOrTheMarker := by
  refine fun c s => ⟨decode_append_operand (.lutInv c) (show 0x000031#24 = 0#16 ++ 0x31#8 by decide), ?_, fun hc => ?_⟩
  · rintro d rfl
    have hw : BitVec.ofNat 32 (0x01000000 + d.val) = 0x010000#24 ++ BitVec.ofNat 8 d.val := by
      apply BitVec.eq_of_toNat_eq
      rw [append_toNat, BitVec.toNat_ofNat, BitVec.toNat_ofNat, BitVec.toNat_ofNat]
      omega
    rw [exec_next_iff, State.onRegs, commandRegs, lutInvRegs_fwd, emit, resultWord_single, hw]
  · rw [exec_next_iff, State.onRegs, commandRegs, lutInvRegs_of_no_symbol hc]
    rfl

/-- Settles O9: the symbol LUT.FWD leaves in OUT0 is the code LUT.INV looks up. -/
theorem tablesAreConsistent : Obligations.TablesAreConsistent := by
  refine ⟨inv_fwd, fun c hv => ?_, fun d s => ⟨_, _, exec_eq _ _, exec_eq _ _, ?_⟩⟩
  · obtain ⟨d, rfl⟩ := inv_valid_iff.mp hv
    exact ⟨d, by rw [inv_fwd, digit_idx], rfl⟩
  · have hd : (BitVec.ofNat 8 d.val).toNat = d.val := by
      rw [BitVec.toNat_ofNat]
      omega
    simp only [commandRegs, State.onRegs_regs, lutFwdRegs_of_digit hd, emit_result, resultOut_single, lutInvRegs_fwd, hd,
      resultLinv_resultWord, and_self]

end Sys2Proof.Machine
end

section
/-! The digits of a group value and the symbols of a group (spec 41_encoder.md R121, R122): a value has one triple of digits,
and whether the third is 0 decides between two symbols and three. -/

namespace Sys2Proof.Machine

theorem digits_value (v : Half) :
    v.toNat = (digits v).1.val + (digits v).2.1.val * 45 + (digits v).2.2.val * 2025 := by
  obtain ⟨h0, h1, h2⟩ := digits_vals v
  omega

theorem digits_third_eq_zero_iff (v : Half) : (digits v).2.2.val = 0 ↔ v.toNat < 2025 := by
  obtain ⟨-, -, h2⟩ := digits_vals v
  omega

/-- Base-45 digits are unique. -/
theorem digits_eq_of_value {v : Half} {d0 d1 d2 : Digit} (h : v.toNat = d0.val + d1.val * 45 + d2.val * 2025) :
    digits v = (d0, d1, d2) := by
  obtain ⟨h0, h1, h2⟩ := digits_vals v
  have e0 : (digits v).1.val = d0.val := by omega
  have e1 : (digits v).2.1.val = d1.val := by omega
  have e2 : (digits v).2.2.val = d2.val := by omega
  exact Prod.ext (Fin.ext e0) (Prod.ext (Fin.ext e1) (Fin.ext e2))

/-- Settles O15; the bound on the third digit is 65535 / 2025 = 32. -/
theorem digitsOfAGroupValue : Obligations.DigitsOfAGroupValue := by
  refine fun v => ⟨digits_value v, ?_, digits_third_eq_zero_iff v, fun d0 d1 d2 => digits_eq_of_value⟩
  have hv := v.isLt
  have h := digits_value v
  omega

/-- EncGroup by the group's value (R122). -/
theorem encGroup_by_value (v : Half) :
    (v.toNat < 2025 ∧ encGroup v = ⟨fwd (digits v).1, fwd (digits v).2.1, 0x00, 2⟩) ∨
    (2025 ≤ v.toNat ∧ encGroup v = ⟨fwd (digits v).1, fwd (digits v).2.1, fwd (digits v).2.2, 3⟩) := by
  have hz : (digits v).2.2 = 0 ↔ v.toNat < 2025 := Fin.val_eq_zero_iff.symm.trans (digits_third_eq_zero_iff v)
  rcases encGroup_cases v with ⟨hd, he⟩ | ⟨hd, he⟩
  · exact .inl ⟨hz.mp hd, he⟩
  · exact .inr ⟨Nat.le_of_not_lt (mt hz.mpr hd), he⟩

/-- Settles O16: the digits given are those EncGroup takes. -/
theorem groupSymbolsByValue : Obligations.GroupSymbolsByValue := by
  intro v d0 d1 d2 h
  have hg := encGroup_by_value v
  rw [digits_eq_of_value h] at hg
  rcases hg with ⟨hv, he⟩ | ⟨hv, he⟩
  · exact ⟨fun _ => he, fun hv' => by omega⟩
  · exact ⟨fun hv' => by omega, fun _ => he⟩

/-- Every group has outputs. -/
theorem encGroup_n_ne_zero (v : Half) : (encGroup v).n ≠ 0 := by
  rcases encGroup_cases v with ⟨-, he⟩ | ⟨-, he⟩ <;> simp [he]

end Sys2Proof.Machine
end

section
/-! The encoder's commands (spec 41_encoder.md R123-R125): the word each leaves in RESULT, and what becomes of the
accumulator. -/

namespace Sys2Proof.Machine

/-- An emit of two outputs. -/
theorem resultWord_pair (a b : Byte) : resultWord ⟨a, b, 0x00, 2⟩ = 0x0200#16 ++ b ++ a :=
  congrArg (· ++ b ++ a) (show (0#5 ++ 0#1 ++ 2#2 ++ 0#8 : BitVec 16) = 0x0200#16 by decide)

/-- An emit of three outputs. -/
theorem resultWord_triple (a b c : Byte) : resultWord ⟨a, b, c, 3⟩ = 0x03#8 ++ c ++ b ++ a :=
  congrArg (· ++ c ++ b ++ a) (show (0#5 ++ 0#1 ++ 3#2 : BitVec 8) = 0x03#8 by decide)

/-- The word of a group: two symbols, or three, as its third digit is 0 or not. -/
theorem resultWord_encGroup (v : Half) : resultWord (encGroup v) =
    if (digits v).2.2.val = 0 then 0x0200#16 ++ fwd (digits v).2.1 ++ fwd (digits v).1
    else 0x03#8 ++ fwd (digits v).2.2 ++ fwd (digits v).2.1 ++ fwd (digits v).1 := by
  rcases encGroup_cases v with ⟨hd, he⟩ | ⟨hd, he⟩
  · rw [he, resultWord_pair, if_pos (Fin.val_eq_zero_iff.mpr hd)]
  · rw [he, resultWord_triple, if_neg (mt Fin.val_eq_zero_iff.mp hd)]

theorem encByteRegs_of_holding {r : Regs} (h : r.encPend = true) (b : Byte) :
    encByteRegs b r = emit (encGroup (pairValue r.encPbyte b)) (encEmpty r) := if_pos h

theorem encByteRegs_of_idle {r : Regs} (h : r.encPend = false) (b : Byte) :
    encByteRegs b r = emitNone { r with encPend := true, encPbyte := b } := if_neg (by simp [h])

theorem encEndRegs_of_holding {r : Regs} (h : r.encPend = true) :
    encEndRegs r = emit (encGroup (loneValue r.encPbyte)) (encEmpty r) := if_pos h

theorem encEndRegs_of_idle {r : Regs} (h : r.encPend = false) : encEndRegs r = emitNone (encEmpty r) :=
  if_neg (by simp [h])

/-- A group's word has NOUT ≠ 0. -/
theorem resultNout_encGroup_ne_zero (v : Half) (r : Regs) : resultNout (emit (encGroup v) r).result ≠ 0 := by
  rw [emit_result, resultNout_resultWord]
  exact encGroup_n_ne_zero v

/-- Settles O17: of the four commands that can empty the accumulator, ENC.BYTE and ENC.END give outputs. -/
theorem encStartDropsThePendingByte : Obligations.EncStartDropsThePendingByte := by
  refine ⟨decode_encode .encStart, fun s => exec_eq .encStart s, fun i s t h hp hp' hn => ?_⟩
  obtain rfl := exec_next_iff.mp h
  rw [State.onRegs_regs] at hp' hn
  rcases commandRegs_encPend_cases i s.regs with hk | ⟨b, rfl⟩ | ⟨rfl | hi, -⟩
  · cases hp'.symm.trans (hk.trans hp)
  · rw [commandRegs, encByteRegs_of_holding hp] at hn
    exact absurd hn (resultNout_encGroup_ne_zero _ _)
  · rw [commandRegs, encEndRegs_of_holding hp] at hn
    exact absurd hn (resultNout_encGroup_ne_zero _ _)
  · exact hi

/-- Settles O18: with a byte pending, the group's value is that of the two bytes, and its digits are EncGroup's. -/
theorem encByteHoldsOrCompletes : Obligations.EncByteHoldsOrCompletes := by
  refine fun b s =>
    ⟨decode_append_operand (.encByte b) (show 0x000011#24 = 0#16 ++ 0x11#8 by decide), fun hp => ?_, fun hp => ?_⟩
  · rw [exec_next_iff, State.onRegs, commandRegs, encByteRegs_of_idle hp, emitNone]
  · have hv := digits_value (pairValue s.regs.encPbyte b)
    rw [pairValue_toNat] at hv
    refine ⟨_, _, _, hv, ?_⟩
    rw [exec_next_iff, State.onRegs, commandRegs, encByteRegs_of_holding hp, emit, resultWord_encGroup, encEmpty]

/-- Settles O19: a lone byte is below 2025, so its third digit is 0. -/
theorem encEndFlushesTheLoneByte : Obligations.EncEndFlushesTheLoneByte := by
  refine ⟨decode_encode .encEnd, fun s => ⟨fun hp => ?_, fun hp => ?_⟩⟩
  · have hb := s.regs.encPbyte.isLt
    have hv := digits_value (loneValue s.regs.encPbyte)
    have hd := (digits_third_eq_zero_iff (loneValue s.regs.encPbyte)).mpr (by rw [loneValue_toNat]; omega)
    rw [loneValue_toNat, hd, Nat.zero_mul, Nat.add_zero] at hv
    refine ⟨_, _, hv, ?_⟩
    rw [exec_next_iff, State.onRegs, commandRegs, encEndRegs_of_holding hp, emit, resultWord_encGroup, if_pos hd, encEmpty]
  · rw [exec_next_iff, State.onRegs, commandRegs, encEndRegs_of_idle hp, emitNone, encEmpty]

/-- Settles O20: a session from an empty accumulator encodes the bytes it feeds. -/
theorem encodeSessionComputesEncodeBytes : Obligations.EncodeSessionComputesEncodeBytes := by
  intro s bs es h hbs hp
  obtain ⟨r', ws, hrun, hws, hend⟩ := Runs.encSession s.base bs s.regs hbs
  rw [pendingBytes_of_idle h, List.nil_append] at hws
  exact ⟨_, ws, hrun.run hp, rfl, rfl, hws, hend⟩

end Sys2Proof.Machine
end

section
/-! The outputs of encode_bytes (spec 41_encoder.md R127): symbol codes, two for each group and a third for each 2-byte group
of value 2025 or more. -/

namespace Sys2Proof.Machine

/-- The symbols of a group value are the codes of its digits. -/
theorem groupSymbols_cases (v : Half) :
    (v.toNat < 2025 ∧ groupSymbols v.toNat = [(digits v).1, (digits v).2.1].map fwd) ∨
    (2025 ≤ v.toNat ∧ groupSymbols v.toNat = [(digits v).1, (digits v).2.1, (digits v).2.2].map fwd) := by
  rw [← outputsOf_encGroup, outputsOf_resultWord]
  rcases encGroup_by_value v with ⟨hv, he⟩ | ⟨hv, he⟩ <;> rw [he]
  · exact .inl ⟨hv, rfl⟩
  · exact .inr ⟨hv, rfl⟩

theorem exists_fwd_of_mem_groupSymbols {v : Half} {c : Byte} (h : c ∈ groupSymbols v.toNat) : ∃ d : Digit, fwd d = c := by
  rcases groupSymbols_cases v with ⟨-, hg⟩ | ⟨-, hg⟩
  all_goals
    rw [hg] at h
    obtain ⟨d, -, hd⟩ := List.mem_map.mp h
    exact ⟨d, hd⟩

theorem length_groupSymbols (v : Half) :
    (groupSymbols v.toNat).length = 2 + if 2025 ≤ v.toNat then 1 else 0 := by
  rcases groupSymbols_cases v with ⟨hv, hg⟩ | ⟨hv, hg⟩
  · rw [hg, if_neg (by omega)]
    rfl
  · rw [hg, if_pos hv]
    rfl

/-- Alphabet closure (R127). -/
theorem exists_fwd_of_mem_encodeBytes {bs : List Byte} {c : Byte} (h : c ∈ encodeBytes bs) : ∃ d : Digit, fwd d = c := by
  induction bs using encodeBytes.induct with
  | case1 => cases h
  | case2 b =>
    rw [encodeBytes, ← loneValue_toNat] at h
    exact exists_fwd_of_mem_groupSymbols h
  | case3 b1 b2 bs ih =>
    rw [encodeBytes, ← pairValue_toNat, List.mem_append] at h
    exact h.elim exists_fwd_of_mem_groupSymbols ih

/-- How many 2-byte groups of a sequence have value 2025 or more: the t of R127. -/
def wideGroups (bs : List Byte) : Nat :=
  ((List.range (bs.length / 2)).filter
    (fun k => 2025 ≤ ((bs[2 * k]?).getD 0).toNat * 256 + ((bs[2 * k + 1]?).getD 0).toNat)).length

/-- The first group counts by its value, and the k-th group after it is the k-th of the rest. -/
theorem wideGroups_cons_cons (b1 b2 : Byte) (bs : List Byte) :
    wideGroups (b1 :: b2 :: bs) = (if 2025 ≤ b1.toNat * 256 + b2.toNat then 1 else 0) + wideGroups bs := by
  have hl : (b1 :: b2 :: bs).length / 2 = bs.length / 2 + 1 := Nat.add_div_right _ Nat.two_pos
  simp only [wideGroups, ← List.countP_eq_length_filter]
  rw [hl, List.range_succ_eq_map, List.countP_cons, List.countP_map, Nat.add_comm]
  congr 1
  simp

/-- The length of the encoding (R127). -/
theorem length_encodeBytes (bs : List Byte) : (encodeBytes bs).length = 2 * ((bs.length + 1) / 2) + wideGroups bs := by
  induction bs using encodeBytes.induct with
  | case1 => rfl
  | case2 b =>
    have hb := b.isLt
    rw [encodeBytes, ← loneValue_toNat, length_groupSymbols, loneValue_toNat, if_neg (by omega)]
    simp [wideGroups]
  | case3 b1 b2 bs ih =>
    rw [encodeBytes, List.length_append, ih, ← pairValue_toNat, length_groupSymbols, pairValue_toNat,
      wideGroups_cons_cons, List.length_cons, List.length_cons]
    omega

/-- Settles O21. -/
theorem encodedLengthAndAlphabet : Obligations.EncodedLengthAndAlphabet := by
  refine fun bs => ⟨fun c => exists_fwd_of_mem_encodeBytes, length_encodeBytes bs, ?_⟩
  rintro rfl
  rfl

end Sys2Proof.Machine
end

section
/-! The overflow check and byte extraction (spec 42_decoder.md R141, R142): both by the value of the group. -/

namespace Sys2Proof.Machine

/-- The total check alone decides an overflow: the total is no less than the term (R141). -/
theorem overflows_iff (idx pos acc : Nat) : overflows idx pos acc = true ↔ 65535 < acc + idx * 45 ^ pos := by
  rw [overflows, partialTerm, Bool.or_eq_true, decide_eq_true_iff, decide_eq_true_iff]
  omega

theorem overflows_eq_false_iff (idx pos acc : Nat) : overflows idx pos acc = false ↔ acc + idx * 45 ^ pos ≤ 65535 := by
  rw [← Bool.not_eq_true, overflows_iff, Nat.not_lt]

/-- The first two symbols of a group make at most 44 + 44 * 45 = 2024. -/
theorem GroupBound.sum_le {pos : BitVec 2} {acc : Half} (h : GroupBound pos acc) (hp : pos ≠ 2) (d : Digit) :
    acc.toNat + d.val * 45 ^ pos.toNat ≤ 2024 := by
  have hd := d.isLt
  rcases h with ⟨rfl, rfl⟩ | ⟨rfl, ha⟩ | ⟨rfl, -⟩
  · change 0 + d.val * 45 ^ 0 ≤ 2024
    omega
  · change acc.toNat + d.val * 45 ^ 1 ≤ 2024
    omega
  · exact absurd rfl hp

/-- Before its third symbol a group's value is at most 2024. -/
theorem GroupBound.acc_le {pos : BitVec 2} {acc : Half} (h : GroupBound pos acc) : acc.toNat ≤ 2024 := by
  rcases h with ⟨-, rfl⟩ | ⟨-, ha⟩ | ⟨-, ha⟩
  · decide
  · omega
  · exact ha

/-- Settles O22: the first two places are within `GroupBound.sum_le`, and at the third the bounds are those of d * 2025
above a group value of at most 2024. -/
theorem overflowOnlyAtTheThirdSymbol : Obligations.OverflowOnlyAtTheThirdSymbol := by
  refine ⟨fun idx pos acc => ⟨?_, overflows_iff idx pos acc⟩, fun d r hr => ?_⟩
  · rw [overflows_iff]
    omega
  have hd := d.isLt
  have hacc := hr.groupBound.acc_le
  simp only [overflows_iff, overflows_eq_false_iff]
  by_cases hp : r.decPos = 2
  · have hpow : d.val * 45 ^ r.decPos.toNat = d.val * 2025 := by rw [hp]; rfl
    rw [hpow]
    refine ⟨by omega, by omega, fun hp' => absurd hp hp', fun _ => ⟨by omega, by omega, by omega, by omega⟩⟩
  · have hsum := hr.groupBound.sum_le hp d
    exact ⟨by omega, by omega, fun _ => ⟨hsum, by omega⟩, fun hp' => absurd hp' hp⟩

/-- The two bytes of a group value. -/
theorem extractLsb'_of_value {num : Half} {b1 b2 : Byte} (h : num.toNat = b1.toNat * 256 + b2.toNat) :
    num.extractLsb' 8 8 = b1 ∧ num.extractLsb' 0 8 = b2 := by
  have h1 := b1.isLt
  have h2 := b2.isLt
  constructor <;> apply BitVec.eq_of_toNat_eq <;> rw [BitVec.extractLsb'_toNat, Nat.shiftRight_eq_div_pow] <;> omega

/-- Settles O23: the high byte is the one Extract tests. -/
theorem extractedBytesByValue : Obligations.ExtractedBytesByValue := by
  intro num b1 b2 h
  obtain ⟨hhi, hlo⟩ := extractLsb'_of_value h
  have hx := extract_cases num
  rw [hhi, hlo] at hx
  rcases hx with ⟨hz, he⟩ | ⟨hz, he⟩
  · exact ⟨fun hne => absurd hz hne, fun _ => he⟩
  · exact ⟨fun _ => he, fun h0 => absurd h0 hz⟩

/-- The word of a group value's bytes: the low byte alone below 256, else the high byte and then the low byte. -/
theorem resultWord_extract {num : Half} {v : Nat} (h : num.toNat = v) : resultWord (extract num) =
    if v < 256 then 0x010000#24 ++ BitVec.ofNat 8 v
    else 0x0200#16 ++ BitVec.ofNat 8 v ++ BitVec.ofNat 8 (v / 256) := by
  have hlt := num.isLt
  have hv : num.toNat = (BitVec.ofNat 8 (v / 256)).toNat * 256 + (BitVec.ofNat 8 v).toNat := by
    rw [BitVec.toNat_ofNat, BitVec.toNat_ofNat]
    omega
  have hz : BitVec.ofNat 8 (v / 256) = 0 ↔ v < 256 := by
    rw [BitVec.toNat_eq, BitVec.toNat_ofNat]
    change _ = 0 ↔ _
    omega
  obtain ⟨htwo, hone⟩ := extractedBytesByValue num _ _ hv
  split
  next hs => rw [hone (hz.mpr hs), resultWord_single]
  next hs => rw [htwo (mt hz.mp hs), resultWord_pair]

end Sys2Proof.Machine
end

section
/-! The decoder's commands (spec 42_decoder.md R143-R145): what each leaves in the registers in each of its cases. -/

namespace Sys2Proof.Machine

/-- Settles O24; the commands that clear ERR are read off the inversion of ERR. -/
theorem decStartClearsTheSession : Obligations.DecStartClearsTheSession := by
  refine ⟨decode_encode .decStart, fun s => exec_eq .decStart s, fun i s t h he he' => ?_⟩
  obtain rfl := exec_next_iff.mp h
  rw [State.onRegs_regs] at he'
  rcases commandRegs_err_cases i s.regs with hk | ⟨-, hset⟩ | ⟨hi, -⟩
  · cases he'.symm.trans (hk.trans he)
  · cases he'.symm.trans hset
  · exact hi

section
variable {r : Regs}

theorem decSymRegs_of_no_symbol (he : r.err = false) {c : Byte} (hc : ∀ d : Digit, fwd d ≠ c) :
    decSymRegs c r = raiseDecodeError .invalidSymbol r := by
  simp [decSymRegs, he, inv_of_no_symbol hc]

/-- A symbol's code is judged by the exact sum its digit makes. -/
theorem decSymRegs_fwd (he : r.err = false) (d : Digit) : decSymRegs (fwd d) r =
    if 65535 < r.decAcc.toNat + d.val * 45 ^ r.decPos.toNat then raiseDecodeError .overflow r
    else acceptDigit d.val r := by
  simp only [decSymRegs, he, inv_fwd, digit_idx, overflows_iff]
  simp

theorem acceptDigit_of_lt (hp : r.decPos.toNat < 2) (d : Nat) : acceptDigit d r =
    emitNone (decGroup (r.decPos + 1) (BitVec.ofNat 16 (r.decAcc.toNat + d * 45 ^ r.decPos.toNat)) (r.decCnt + 1) r) :=
  if_pos hp

theorem acceptDigit_of_ge (hp : 2 ≤ r.decPos.toNat) (d : Nat) : acceptDigit d r =
    emit (extract (BitVec.ofNat 16 (r.decAcc.toNat + d * 45 ^ r.decPos.toNat))) (decGroup 0 0 (r.decCnt + 1) r) :=
  if_neg (by omega)

theorem decEndRegs_of_empty (he : r.err = false) (hp : r.decPos = 0) :
    decEndRegs r = emitNone (decGroup 0 0 0 r) := by
  rcases decEndRegs_cases r with ⟨he', -⟩ | ⟨-, -, hr⟩ | ⟨-, hp', -⟩
  · cases he.symm.trans he'
  · exact hr
  · exact absurd hp hp'

theorem decEndRegs_of_partial (he : r.err = false) (hp : r.decPos ≠ 0) :
    decEndRegs r = emit (extract r.decAcc) (decGroup 0 0 0 r) := by
  rcases decEndRegs_cases r with ⟨he', -⟩ | ⟨-, hp', -⟩ | ⟨-, -, hr⟩
  · cases he.symm.trans he'
  · exact absurd hp' hp
  · exact hr

end

/-- Settles O25: a failed session, no symbol, and for a symbol the sum and the place. -/
theorem decSymTakesOneSymbol : Obligations.DecSymTakesOneSymbol := by
  refine fun c s => ⟨decode_append_operand (.decSym c) (show 0x000021#24 = 0#16 ++ 0x21#8 by decide),
    fun he => ?_, fun he hc => ?_, ?_⟩
  · rw [exec_next_iff, State.onRegs, commandRegs, Failed.decSym ⟨he, rfl, rfl⟩, emitNone]
  · rw [exec_next_iff, State.onRegs, commandRegs, decSymRegs_of_no_symbol he hc, raiseDecodeError]
  · rintro d he rfl sum
    refine ⟨fun hs => ?_, fun hs hp => ?_, fun hs hp => ?_⟩
    · rw [exec_next_iff, State.onRegs, commandRegs, decSymRegs_fwd he, if_pos hs, raiseDecodeError]
    · rw [exec_next_iff, State.onRegs, commandRegs, decSymRegs_fwd he, if_neg (Nat.not_lt.mpr hs), acceptDigit_of_lt hp,
        emitNone, decGroup]
    · have hsum : (BitVec.ofNat 16 sum).toNat = sum := by
        rw [BitVec.toNat_ofNat]
        omega
      rw [exec_next_iff, State.onRegs, commandRegs, decSymRegs_fwd he, if_neg (Nat.not_lt.mpr hs), acceptDigit_of_ge hp,
        emit, resultWord_extract hsum, decGroup]

/-- Settles O26: a failed session, no partial group, and a partial group. -/
theorem decEndCompletesTheFinalGroup : Obligations.DecEndCompletesTheFinalGroup := by
  refine ⟨decode_encode .decEnd, fun s => ⟨fun he => ?_, fun he hp => ?_, fun he hp => ?_⟩⟩
  · rw [exec_next_iff, State.onRegs, commandRegs, Failed.decEnd ⟨he, rfl, rfl⟩, emitNone]
  · rw [exec_next_iff, State.onRegs, commandRegs, decEndRegs_of_empty he hp, emitNone, decGroup]
  · rw [exec_next_iff, State.onRegs, commandRegs, decEndRegs_of_partial he hp, emit, resultWord_extract rfl, decGroup]

/-- Settles O27: after DEC.START and the commands behind it the decoder stands before a first group, from where the rest of
the session reports decode_to_bytes. -/
theorem decodeSessionComputesDecodeToBytes : Obligations.DecodeSessionComputesDecodeToBytes := by
  rintro s js cs es prog hjs hcs rfl hp
  obtain ⟨r', ws, hrun, hrep⟩ := Runs.decSession s.base cs hcs ((InGroup.start s.regs).commandsRegs hjs)
  have hall := ((Runs.commandAndRead s.base .decStart js s.regs).append hrun).run hp
  have hws : collect ((commandRegs .decStart s.regs).result :: ws) = collect ws := by
    rw [collect_cons, commandRegs, decStartRegs, outputsOf_emitNone, List.nil_append]
  refine ⟨_, (commandRegs .decStart s.regs).result :: ws, statusWord r', r'.errPos, hall, rfl, by simp, ?_⟩
  rw [hws, statusWord_err, statusWord_errKind]
  cases hrep with
  | ok hd he hp =>
    refine ⟨fun out h => ?_, fun kind pos h => ?_⟩
    · cases hd.symm.trans h
      exact ⟨he, rfl, hp⟩
    · cases hd.symm.trans h
  | error k p hd hf hle hout =>
    refine ⟨fun out h => ?_, fun kind pos h => ?_⟩
    · cases hd.symm.trans h
    · cases hd.symm.trans h
      exact ⟨hf.err, congrArg ErrKind.code hf.errKind, hf.errPos, hout⟩

end Sys2Proof.Machine
end

section
/-! Decoding an encoding (spec 42_decoder.md R147): a group of value 2025 or more has three symbols and decodes on its own;
so does a group at the end of the input; and the bytes of its value are the group's own unless it has a high byte 0. -/

namespace Sys2Proof.Machine

theorem groupValue_pair (d0 d1 : Digit) : groupValue [d0, d1] = d0.val + d1.val * 45 := by
  simp [groupValue, Nat.ofDigits, Nat.mul_comm]

theorem groupValue_triple (d0 d1 d2 : Digit) : groupValue [d0, d1, d2] = d0.val + d1.val * 45 + d2.val * 2025 := by
  simp [groupValue, Nat.ofDigits]
  omega

/-- Three symbols are a whole group wherever they stand. -/
theorem decodeFrom_groupSymbols_wide {v : Half} (hv : 2025 ≤ v.toNat) (pos : Nat) (cs : List Byte) :
    decodeFrom pos (groupSymbols v.toNat ++ cs) = (groupBytes v.toNat ++ ·) <$> decodeFrom (pos + 3) cs := by
  have hlt := v.isLt
  rcases groupSymbols_cases v with ⟨hv', -⟩ | ⟨-, hg⟩
  · omega
  · rw [hg, decodeFrom_group pos rfl, groupValue_triple, ← digits_value, if_neg (by omega)]

/-- The symbols of any group decode to the bytes of its value at the end of the input. -/
theorem decodeFrom_groupSymbols (v : Half) (pos : Nat) :
    decodeFrom pos (groupSymbols v.toNat) = .ok (groupBytes v.toNat) := by
  rcases groupSymbols_cases v with ⟨hv, hg⟩ | ⟨hv, -⟩
  · have hd := digits_value v
    rw [(digits_third_eq_zero_iff v).mpr hv, Nat.zero_mul, Nat.add_zero] at hd
    rw [hg, decodeFrom_partial pos (ds := [_, _]) (Nat.lt_succ_self 2), if_neg (List.cons_ne_nil _ _), groupValue_pair, ← hd]
  · have hw := decodeFrom_groupSymbols_wide hv pos []
    rw [List.append_nil] at hw
    rw [hw]
    simp [decodeFrom]

theorem groupBytes_lone (b : Byte) : groupBytes b.toNat = [b] := by
  rw [groupBytes, if_pos b.isLt, BitVec.ofNat_toNat, BitVec.setWidth_eq]

theorem groupBytes_pair {b1 : Byte} (h : b1 ≠ 0) (b2 : Byte) : groupBytes (pairValue b1 b2).toNat = [b1, b2] := by
  obtain ⟨htwo, -⟩ := extractedBytesByValue (pairValue b1 b2) b1 b2 (pairValue_toNat b1 b2)
  rw [← outputsOf_extract, htwo h, outputsOf_resultWord]
  rfl

/-- The condition of R147, from any position of the text. -/
theorem decodeFrom_encodeBytes (bs : List Byte) (pos : Nat)
    (hwide : ∀ k, 2 * k + 2 < bs.length → 2025 ≤ ((bs[2 * k]?).getD 0).toNat * 256 + ((bs[2 * k + 1]?).getD 0).toNat)
    (hlast : bs.length % 2 = 0 → bs ≠ [] → (bs[bs.length - 2]?).getD 0 ≠ 0) :
    decodeFrom pos (encodeBytes bs) = .ok bs := by
  induction bs using encodeBytes.induct generalizing pos with
  | case1 => rfl
  | case2 b => rw [encodeBytes, ← loneValue_toNat, decodeFrom_groupSymbols, loneValue_toNat, groupBytes_lone]
  | case3 b1 b2 bs ih =>
    rw [encodeBytes, ← pairValue_toNat]
    by_cases hbs : bs = []
    · subst hbs
      have hb1 : b1 ≠ 0 := hlast (by simp) (by simp)
      rw [encodeBytes, List.append_nil, decodeFrom_groupSymbols, groupBytes_pair hb1]
    · have hlen := List.length_pos_of_ne_nil hbs
      have hv : 2025 ≤ (pairValue b1 b2).toNat := pairValue_toNat b1 b2 ▸ hwide 0 (by simpa using hlen)
      have hb1 : b1 ≠ 0 := by
        rintro rfl
        have hb2 := b2.isLt
        rw [pairValue_toNat] at hv
        change 2025 ≤ 0 * 256 + b2.toNat at hv
        omega
      rw [decodeFrom_groupSymbols_wide hv, groupBytes_pair hb1, ih]
      · rfl
      · exact fun k hk => hwide (k + 1) (by simp only [List.length_cons]; omega)
      · intro heven _
        have hidx : (b1 :: b2 :: bs).length - 2 = bs.length - 2 + 2 := by simp only [List.length_cons]; omega
        have hl := hlast (by simp only [List.length_cons]; omega) (List.cons_ne_nil _ _)
        rwa [hidx] at hl

/-- Settles O29: the condition at the start of the text. -/
theorem roundTripUnderTheCondition : Obligations.RoundTripUnderTheCondition :=
  fun bs => decodeFrom_encodeBytes bs 0

/-- Settles O30, by running the four sequences. -/
theorem roundTripFails : Obligations.RoundTripFails :=
  ⟨rfl, rfl, rfl, rfl⟩

end Sys2Proof.Machine
end

section
/-! The control commands, and the step as dispatch (spec 43_control.md R170-R172). -/

namespace Sys2Proof.Machine

/-- No command but NOP leaves a word with every bit set: with LINV = 1 it would be a lookup's invalid marker, whose upper bits
are 0. -/
theorem commandRegs_result_ne_allOnes {i : Instr} (h : i ≠ .nop) (r : Regs) :
    (commandRegs i r).result ≠ 0xFFFFFFFF := by
  intro hr
  have hmarker : (emitInvalid r).result ≠ 0xFFFFFFFF := by
    rw [emitInvalid_result]
    decide
  have hlinv : resultLinv (commandRegs i r).result = true := by
    rw [hr]
    decide
  rcases resultLinv_commandRegs hlinv with ⟨hi, -⟩ | ⟨n, rfl, hn⟩ | ⟨c, rfl, hc⟩
  · exact h hi
  · rw [commandRegs, lutFwdRegs_of_large hn] at hr
    exact hmarker hr
  · rw [commandRegs, lutInvRegs_of_no_symbol hc] at hr
    exact hmarker hr

/-- Settles O12: every other command changes a RESULT of 0xFFFFFFFF, which a state may hold but no command writes. -/
theorem nopChangesNothing : Obligations.NopChangesNothing :=
  ⟨decode_encode .nop, fun s => exec_eq .nop s,
    fun i hi => ⟨{ State.reset with regs := { Regs.reset with result := 0xFFFFFFFF } }, _, exec_eq i _,
      commandRegs_result_ne_allOnes hi _⟩,
    _, rfl⟩

/-- Settles O13: what clears BADCMD is a clause of R38's table. -/
theorem clearWritesEveryRegister : Obligations.ClearWritesEveryRegister := by
  refine ⟨decode_encode .clear, fun s => exec_eq .clear s, fun i s t h => ?_⟩
  obtain ⟨-, -, -, -, -, hclears, -⟩ := flagsHaveOnlyTheirWriters i s t h
  exact hclears

theorem dispatch_of_ok {w : Word} {i : Instr} (h : decode w = .ok i) (s : State) : dispatch w s = exec i s := by
  rw [dispatch, h]

/-- Settles O14: a legal word is dispatched, an illegal one is R75's case, and a read changes the host's side only. -/
theorem stepRunsTheDecodedCommand : Obligations.StepRunsTheDecodedCommand := by
  refine fun s es => ⟨fun w i hp hd => ?_, fun w e hp he => ?_, fun addr bytes t hp ht => ?_⟩
  · exact (step_own_write hp).trans (dispatch_of_ok hd _)
  · obtain ⟨-, hillegal⟩ := illegalWordsAreThoseOfR75 w
    exact hillegal s es hp ⟨e, he⟩
  · rw [step_cons hp] at ht
    obtain ⟨k, off, b, -, -, -, -, rfl⟩ := busEvent_read_next ht
    rfl

end Sys2Proof.Machine
end

section
/-! The error record (spec 60_exceptions.md R184, R185): the one command that makes it, the commands that keep it, and the
commands to which it makes no difference. -/

namespace Sys2Proof.Machine

theorem acceptDigit_err (d : Nat) (r : Regs) : (acceptDigit d r).err = r.err := by
  rcases acceptDigit_cases d r with ⟨-, ha⟩ | ⟨-, ha⟩ <;> exact (congrArg Regs.err ha :)

/-- A DEC.SYM that leaves a good session failed has recorded one of the two errors. -/
theorem decSymRegs_raises {c : Byte} {r : Regs} (he : r.err = false) (h : (decSymRegs c r).err = true) :
    ∃ k, (k = .invalidSymbol ∨ k = .overflow) ∧ decSymRegs c r = raiseDecodeError k r := by
  rcases decSymRegs_cases c r with ⟨he', -⟩ | ⟨-, -, hr⟩ | ⟨d, -, -, -, hr⟩ | ⟨d, -, -, -, hr⟩
  · cases he.symm.trans he'
  · exact ⟨_, .inl rfl, hr⟩
  · exact ⟨_, .inr rfl, hr⟩
  · rw [hr, acceptDigit_err, he] at h
    cases h

/-- A command that leaves a failed session failed keeps its kind and position. -/
theorem Failed.commandRegs_of_err {k : ErrKind} {p : Word} {r : Regs} (h : Failed k p r) {i : Instr}
    (he : (commandRegs i r).err = true) : Failed k p (commandRegs i r) := by
  have hspares (hi : sparesDecoder i = true) : Failed k p (commandRegs i r) :=
    h.commandsRegs (is := [i]) (List.forall_mem_singleton.mpr hi)
  cases i with
  | nop => exact h
  | clear | decStart => cases he
  | decSym c =>
    rw [commandRegs, h.decSym]
    exact h.emitNone
  | decEnd =>
    rw [commandRegs, h.decEnd]
    exact h.emitNone
  | encStart | encByte b | encEnd | lutFwd n | lutInv c => exact hspares rfl

/-- Settles O31: a record made is a DEC.SYM's, and a standing one is kept. -/
theorem onlyDecSymRecordsADecodeError : Obligations.OnlyDecSymRecordsADecodeError := by
  intro i s t h ht
  obtain ⟨-, -, hsets, -⟩ := flagsHaveOnlyTheirWriters i s t h
  obtain rfl := exec_next_iff.mp h
  refine ⟨fun he => ?_, fun he => ?_⟩
  · obtain ⟨c, rfl⟩ := hsets he ht
    obtain ⟨k, hk, hr⟩ := decSymRegs_raises he ht
    rw [State.onRegs, commandRegs, hr]
    exact ⟨⟨c, rfl⟩, hk, rfl⟩
  · obtain ⟨-, hkind, hpos⟩ := Failed.commandRegs_of_err ⟨he, rfl, rfl⟩ ht
    exact ⟨hkind, hpos⟩

/-- The registers with another error record (R183). -/
def withErrorRecord (e : Bool) (k : ErrKind) (p : Word) (r : Regs) : Regs := { r with err := e, errKind := k, errPos := p }

/-- An encoder command or a lookup acts on any error record alike, and keeps it: each decides by ENC_PEND or by its operand,
and changes only ENC_PEND, ENC_PBYTE and RESULT. -/
theorem commandRegs_withErrorRecord {i : Instr} (hi : sparesDecoder i = true) (e : Bool) (k : ErrKind) (p : Word)
    (r : Regs) : commandRegs i (withErrorRecord e k p r) = withErrorRecord e k p (commandRegs i r) := by
  cases i with
  | encStart => rfl
  | encByte b =>
    rcases encByteRegs_cases b r with ⟨hp, hr⟩ | ⟨hp, hr⟩ <;> rw [commandRegs, commandRegs, hr]
    · exact encByteRegs_of_holding (r := withErrorRecord e k p r) hp b
    · exact encByteRegs_of_idle (r := withErrorRecord e k p r) hp b
  | encEnd =>
    rcases encEndRegs_cases r with ⟨hp, hr⟩ | ⟨hp, hr⟩ <;> rw [commandRegs, commandRegs, hr]
    · exact encEndRegs_of_holding (r := withErrorRecord e k p r) hp
    · exact encEndRegs_of_idle (r := withErrorRecord e k p r) hp
  | lutFwd n =>
    rcases lutFwdRegs_cases n r with ⟨d, hd, hr⟩ | ⟨hn, hr⟩ <;> rw [commandRegs, commandRegs, hr]
    · exact lutFwdRegs_of_digit hd.symm _
    · exact lutFwdRegs_of_large hn _
  | lutInv c =>
    rcases inv_cases c with ⟨d, rfl, -⟩ | ⟨hc, -⟩ <;> rw [commandRegs, commandRegs]
    · rw [lutInvRegs_fwd d r]
      exact lutInvRegs_fwd d _
    · rw [lutInvRegs_of_no_symbol hc r]
      exact lutInvRegs_of_no_symbol hc _
  | nop | clear | decStart | decSym c | decEnd => cases hi

/-- Settles O32: the failed-session cases of DEC.SYM and DEC.END, and the other pipelines' indifference to the record. -/
theorem firstErrorSticks : Obligations.FirstErrorSticks := by
  refine ⟨fun c s he => ?_, fun i s t e k p hi h => ?_⟩
  · obtain ⟨-, hsym, -⟩ := decSymTakesOneSymbol c s
    obtain ⟨-, hends⟩ := decEndCompletesTheFinalGroup
    obtain ⟨hend, -⟩ := hends s
    exact ⟨hsym he, hend he⟩
  · obtain rfl := exec_next_iff.mp h
    exact exec_next_iff.mpr (congrArg (fun r => { s with regs := r }) (commandRegs_withErrorRecord hi e k p s.regs).symm)

/-- Settles O33: the first part is R75's, and BADCMD is outside every pipeline. -/
theorem illegalWordSetsBadCmdOnly : Obligations.IllegalWordSetsBadCmdOnly := by
  refine ⟨fun s es w e he hp => ?_, fun i s t h hi => ?_⟩
  · obtain ⟨-, hillegal⟩ := illegalWordsAreThoseOfR75 w
    exact hillegal s es hp ⟨e, he⟩
  · obtain rfl := exec_next_iff.mp h
    exact commandRegs_badCmd hi s.regs

end Sys2Proof.Machine
end

section
/-! RESULT as a single slot, and reset beside CLEAR (spec 70_reset_and_hazards.md R200, R203, R204). -/

namespace Sys2Proof.Machine

/-- A command but NOP acts on any RESULT alike: no branch of its meaning is chosen by RESULT, and every branch writes it. -/
theorem commandRegs_withResult {i : Instr} (h : i ≠ .nop) (x : Word) (r : Regs) :
    commandRegs i { r with result := x } = commandRegs i r := by
  cases i with
  | nop => exact absurd rfl h
  | clear | encStart | encByte b | encEnd | decStart | decSym c | decEnd | lutFwd n | lutInv c => rfl

/-- Settles O36: an illegal word changes BADCMD alone. -/
theorem resultIsASingleSlot : Obligations.ResultIsASingleSlot := by
  refine ⟨fun i s x hi => ?_, exec_eq .nop, fun s t es w e he hp ht => ?_⟩
  · rw [exec_eq, exec_eq]
    exact congrArg (fun r => Host.Outcome.next { s with regs := r }) (commandRegs_withResult hi x s.regs)
  · obtain ⟨hillegal, -⟩ := illegalWordSetsBadCmdOnly
    obtain rfl := Host.Outcome.next.inj (ht.symm.trans (hillegal s es w e he hp))
    rfl

/-- Reset moves no window. -/
theorem State.applyReset_bases (s : State) : s.applyReset.blocks.map Block.base = s.blocks.map Block.base := by
  simp [State.blocks_eq, Function.comp_def]

/-- Settles O44: the reset step is `State.applyReset`, and CLEAR's writes are the reset values. -/
theorem resetAndClearAgree : Obligations.ResetAndClearAgree := by
  intro s es hp
  refine ⟨_, _, step_cons hp, exec_eq .clear _, rfl, rfl, rfl, rfl, rfl, ?_, ?_⟩
  · exact List.tail_eq_of_cons_eq (State.applyReset_bases { s with pending := es })
  · exact List.forall_mem_map.mpr fun _ _ => rfl

end Sys2Proof.Machine
end

section
/-! Runs of a host that keeps the access contract (spec 70_reset_and_hazards.md R206, 00_scope.md R12): an event moves no
window and takes no other event from the host, so what is left of the contract still holds after it. -/

namespace Sys2Proof.Machine

/-- A completed event leaves the host's other events pending and every window where it was. -/
theorem busEvent_frame {e : BusEvent} {s t : State} (h : busEvent e s = .next t) :
    t.pending = s.pending ∧ t.blocks.map Block.base = s.blocks.map Block.base := by
  rcases busEvent_next h with ⟨_, _, _, _, -, -, -, -, rfl⟩ | ⟨_, _, _, k, _, i, -, -, -, -, -, rfl⟩ |
    ⟨_, _, _, k, _, _, -, -, -, -, -, rfl⟩ | ⟨_, _, _, _, -, -, -, -, rfl⟩ | ⟨-, rfl⟩
  · exact ⟨rfl, rfl⟩
  · exact ⟨State.onBlockRegs_pending s _ k, State.onBlockRegs_bases s k _⟩
  · exact ⟨State.onBlockRegs_pending s _ k, State.onBlockRegs_bases s k _⟩
  · exact ⟨rfl, rfl⟩
  · exact ⟨rfl, State.applyReset_bases s⟩

/-- Which addresses are mapped depends on where the windows lie only. -/
theorem State.mapped_iff (s : State) (addr : Nat) :
    s.mapped addr ↔ ∃ a ∈ s.blocks.map Block.base, a ≤ addr ∧ addr < a + 0x40 := by
  simp [State.mapped]

/-- The contract asks the same of an event in every state with the same windows. -/
theorem State.onContract_of_bases {s t : State} (hb : t.blocks.map Block.base = s.blocks.map Block.base) {e : BusEvent}
    (he : s.onContract e) : t.onContract e := by
  have hmapped (addr : Nat) (h : s.mapped addr) : t.mapped addr := by
    rwa [State.mapped_iff, hb, ← State.mapped_iff]
  cases e with
  | read addr bytes => exact he.imp_right (And.imp_right (hmapped addr))
  | write addr bytes v => exact he.imp_right (And.imp_right (hmapped addr))
  | reset => trivial

/-- A step of a host that keeps the contract completes, takes the next event if there is one, and leaves a host that keeps
the contract. -/
theorem State.Inv.step_completes {s : State} (h : s.Inv) (hc : s.hostKeepsContract) :
    ∃ t, step s = .next t ∧ t.pending = s.pending.tail ∧ t.Inv ∧ t.hostKeepsContract := by
  cases hp : s.pending with
  | nil => exact ⟨s, step_nil hp, hp, h, hc⟩
  | cons e es =>
    obtain ⟨he, hes⟩ : s.onContract e ∧ ∀ e' ∈ es, s.onContract e' := List.forall_mem_cons.mp (hp ▸ hc)
    obtain ⟨t, ht⟩ := (h.withHost es s.reads).busEvent_completes ((State.onContract_withHost s es s.reads e).mpr he)
    have hstep : step s = .next t := (step_cons hp).trans ht
    obtain ⟨hpt, hb⟩ : t.pending = es ∧ _ := busEvent_frame ht
    refine ⟨t, hstep, hpt, stepKeepsTheInvariants s t h hstep, fun e' he' => ?_⟩
    exact State.onContract_of_bases hb (hes e' (hpt ▸ he'))

/-- Settles O49, by induction on the number of steps. -/
theorem contractKeepingRunsComplete : Obligations.ContractKeepingRunsComplete := by
  intro s n
  induction n generalizing s with
  | zero => exact fun h _ => ⟨s, rfl, rfl, h⟩
  | succ n ih =>
    intro h hc
    obtain ⟨u, hu, hpu, hiu, hcu⟩ := h.step_completes hc
    obtain ⟨t, ht, hpt, hit⟩ := ih u hiu hcu
    refine ⟨t, ?_, ?_, hit⟩
    · have hcore : core.step s = .next u := hu
      simpa only [Host.Core.run, hcore] using ht
    · rw [hpt, hpu, List.drop_tail]

end Sys2Proof.Machine
end

section
/-! The pipelines' independence of each other (spec 40_alphabet.md section 3, 41_encoder.md section 2, 42_decoder.md section
2): what each family of commands may read, said as what its writes are a function of. -/

namespace Sys2Proof.Machine

/-- A lookup writes one word to RESULT, the same over any registers: its operand alone decides it. -/
theorem commandRegs_of_lookup {i : Instr} (hi : (∃ n, i = .lutFwd n) ∨ (∃ c, i = .lutInv c)) :
    ∃ w, ∀ r, commandRegs i r = { r with result := w } := by
  rcases hi with ⟨n, rfl⟩ | ⟨c, rfl⟩
  · by_cases hn : n.toNat < 45
    · exact ⟨_, lutFwdRegs_of_digit (d := ⟨n.toNat, hn⟩) rfl⟩
    · exact ⟨_, lutFwdRegs_of_large (by omega)⟩
  · rcases inv_cases c with ⟨d, rfl, -⟩ | ⟨hc, -⟩
    · exact ⟨_, lutInvRegs_fwd d⟩
    · exact ⟨_, lutInvRegs_of_no_symbol hc⟩

/-- What an encoder command writes is fixed by the ENC_PEND and ENC_PBYTE it finds, whatever the other registers hold. -/
theorem commandRegs_of_encoder {i : Instr} (hi : i = .encStart ∨ (∃ b, i = .encByte b) ∨ i = .encEnd)
    (pend : Bool) (byte : Byte) : ∃ pend' byte' w, ∀ r : Regs, r.encPend = pend → r.encPbyte = byte →
      commandRegs i r = { r with encPend := pend', encPbyte := byte', result := w } := by
  rcases hi with rfl | ⟨b, rfl⟩ | rfl
  · exact ⟨_, _, _, fun _ _ _ => rfl⟩
  · cases pend with
    | true => exact ⟨_, _, resultWord (encGroup (pairValue byte b)), fun _ hp hx => hx ▸ encByteRegs_of_holding hp b⟩
    | false => exact ⟨_, _, _, fun _ hp _ => encByteRegs_of_idle hp b⟩
  · cases pend with
    | true => exact ⟨_, _, resultWord (encGroup (loneValue byte)), fun _ hp hx => hx ▸ encEndRegs_of_holding hp⟩
    | false => exact ⟨_, _, _, fun _ hp _ => encEndRegs_of_idle hp⟩

/-- The registers r with the encoder's state and BADCMD as in q. -/
def withEncoder (q r : Regs) : Regs := { r with encPend := q.encPend, encPbyte := q.encPbyte, badCmd := q.badCmd }

theorem acceptDigit_withEncoder (d : Nat) (q r : Regs) :
    acceptDigit d (withEncoder q r) = withEncoder q (acceptDigit d r) := by
  rcases acceptDigit_cases d r with ⟨hp, hr⟩ | ⟨hp, hr⟩ <;> rw [hr]
  · exact acceptDigit_of_lt (r := withEncoder q r) hp d
  · exact acceptDigit_of_ge (r := withEncoder q r) hp d

/-- DEC.SYM decides by ERR, its operand, DEC_POS and DEC_ACC. -/
theorem decSymRegs_withEncoder (c : Byte) (q r : Regs) :
    decSymRegs c (withEncoder q r) = withEncoder q (decSymRegs c r) := by
  cases he : r.err with
  | true =>
    rw [Failed.decSym ⟨he, rfl, rfl⟩]
    exact Failed.decSym (r := withEncoder q r) ⟨he, rfl, rfl⟩ c
  | false =>
    rcases inv_cases c with ⟨d, rfl, -⟩ | ⟨hc, -⟩
    · rw [decSymRegs_fwd he, apply_ite (withEncoder q), ← acceptDigit_withEncoder]
      exact decSymRegs_fwd (r := withEncoder q r) he d
    · rw [decSymRegs_of_no_symbol he hc]
      exact decSymRegs_of_no_symbol (r := withEncoder q r) he hc

/-- DEC.END decides by ERR and DEC_POS. -/
theorem decEndRegs_withEncoder (q r : Regs) : decEndRegs (withEncoder q r) = withEncoder q (decEndRegs r) := by
  rcases decEndRegs_cases r with ⟨he, hr⟩ | ⟨he, hp, hr⟩ | ⟨he, hp, hr⟩ <;> rw [hr]
  · exact Failed.decEnd (r := withEncoder q r) ⟨he, rfl, rfl⟩
  · exact decEndRegs_of_empty (r := withEncoder q r) he hp
  · exact decEndRegs_of_partial (r := withEncoder q r) he hp

/-- A decoder command acts alike beside any encoder's state and BADCMD, and keeps them. -/
theorem commandRegs_withEncoder {i : Instr} (hi : i = .decStart ∨ (∃ c, i = .decSym c) ∨ i = .decEnd) (q r : Regs) :
    commandRegs i (withEncoder q r) = withEncoder q (commandRegs i r) := by
  rcases hi with rfl | ⟨c, rfl⟩ | rfl
  · rfl
  · exact decSymRegs_withEncoder c q r
  · exact decEndRegs_withEncoder q r

/-- Settles O35, family by family; that a decoder command does not read RESULT either is R204's single slot. -/
theorem pipelinesAreIndependent : Obligations.PipelinesAreIndependent := by
  refine ⟨fun i r₁ r₂ s t₁ t₂ hi h₁ h₂ => ?_, fun i r₁ r₂ s t₁ t₂ hi hp hx h₁ h₂ => ?_,
    fun i r₁ r₂ s t₁ t₂ hi hr h₁ h₂ => ?_⟩ <;>
    obtain rfl := exec_next_iff.mp h₁ <;> obtain rfl := exec_next_iff.mp h₂ <;> simp only [State.onRegs]
  · obtain ⟨w, hw⟩ := commandRegs_of_lookup hi
    rw [hw, hw]
    exact ⟨rfl, rfl⟩
  · obtain ⟨_, _, _, hw⟩ := commandRegs_of_encoder hi r₂.encPend r₂.encPbyte
    rw [hw r₁ hp hx, hw r₂ rfl rfl]
    exact ⟨rfl, rfl, rfl, rfl⟩
  · have hnop : i ≠ .nop := by rcases hi with rfl | ⟨c, rfl⟩ | rfl <;> exact nofun
    refine ⟨congrArg (fun r => { s with regs := r }) (commandRegs_withEncoder hi r₁ r₁), ?_⟩
    calc withEncoder r₂ (commandRegs i r₁)
      _ = commandRegs i (withEncoder r₂ r₁) := (commandRegs_withEncoder hi r₂ r₁).symm
      _ = commandRegs i { withEncoder r₂ r₁ with result := r₂.result } := (commandRegs_withResult hnop _ _).symm
      _ = commandRegs i r₂ := congrArg (commandRegs i) hr

end Sys2Proof.Machine
end
